-- ==== Sys2Proof/Word.lean ====
section
/-!
DEFINITION. The word types of the 65002 and the plainest arithmetic on them (R5): bytes, 64-bit words,
zero and sign extension to 64 bits, and the sum modulo 2^64.
-/

namespace Sys2Proof

/-- A byte is 8 bits (R5). -/
abbrev Byte := BitVec 8

/-- A register or an address: `XLEN` = 64 bits (R4, decision D3), addresses modulo 2^64 (R23, decision D2). -/
abbrev Word := BitVec 64

/-- `add64(a, b) = (a + b) mod 2^64` (R5). -/
abbrev add64 (a b : Word) : Word := a + b

/-- `zext_64(v)` widens with zeros (R5). -/
abbrev zext64 {k : Nat} (v : BitVec k) : Word := v.setWidth 64

/-- `sext_64(v : N)` widens by copying bit `N - 1` (R5). -/
abbrev sext64 {k : Nat} (v : BitVec k) : Word := v.signExtend 64

end Sys2Proof
end

