-- ==== Sys2Proof/Syntax.lean ====
section
/-!
DEFINITION. The syntax of the addressing-mode layer: the fields of a decoded instruction (R7), the 48 addressing
modes M1 to M48, the result of a mode (R8), and `Instr`, one constructor per row of spec/opcode_table.json.
-/

namespace Sys2Proof

/-- The class of the operation an opcode selects (R7, R59). -/
inductive OpClass where
  /-- any operation with a data operand, such as LDA -/
  | data
  /-- JMP, JSR, JPU -/
  | jump
  /-- BSR -/
  | bsr
  /-- every other instruction with a relative parameter ("branches") -/
  | branch
  /-- any other operation -/
  | other
  deriving DecidableEq, Repr

/-- The base addressing mode an opcode selects: the 19 base modes of R48 and the placeholder `address?`
(`addressUnknown`) from which Address Long is reached (R88). -/
inductive Base where
  | implied | accumulator | address | addressUnknown | imm | eind
  | zp | zpX | zpY | abs | absX | absY
  | zpInd | zpIndY | zpXInd | absInd | absIndY | absXInd
  | rel | relwide
  deriving DecidableEq, Repr

/-- The prefix field OF1/0 (R44): 00 none, 01 PC, 10 SR (the stack pointer), 11 BR. -/
inductive Offset where
  | none | pc | sr | br
  deriving DecidableEq, Repr

/-- The two-bit prefix field RS (R45). -/
inductive RS where
  | rs00 | rs01 | rs10 | rs11
  deriving DecidableEq, Repr

/-- What the prefix information of one instruction says (R43, R44, R45): AM, OF, RS, and the number of bytes it
took (`prefix_length`, R52). -/
structure Pfx where
  am : Bool
  off : Offset
  rs : RS
  len : Nat
  deriving DecidableEq, Repr

/-- An instruction without a prefix: all fields 0 (R46). -/
def Pfx.absent : Pfx := { am := false, off := .none, rs := .rs00, len := 0 }

/-- The 48 final addressing modes, M1 to M48 in the order of the source's list. -/
inductive Mode where
  | implied
  | accumulator
  | address
  | addressLong
  | addressQuad
  | immediate
  | immediate16
  | immediate32
  | immediate64
  | eIndirect
  | zeropage
  | zeropageX
  | zeropageY
  | absolute16
  | absolute16X
  | absolute16Y
  | absolute32
  | absolute32X
  | absolute32Y
  | absolute64
  | absolute64X
  | absolute64Y
  | zeropageIndirect16
  | zeropageIndirect16Y
  | zeropageXIndirect16
  | absoluteIndirect16
  | absoluteIndirect16Y
  | absoluteXIndirect16
  | zeropageIndirect32
  | zeropageIndirect32Y
  | zeropageXIndirect32
  | absoluteIndirect32
  | absoluteIndirect32Y
  | absoluteXIndirect32
  | zeropageIndirect64
  | zeropageIndirect64Y
  | zeropageXIndirect64
  | absoluteIndirect64
  | absoluteIndirect64Y
  | absoluteXIndirect64
  | relative
  | relative16
  | relative32
  | relative64
  | relativeBsr
  | relative16Bsr
  | relative32Bsr
  | relative64Bsr
  deriving DecidableEq, Repr

/-- The result of an addressing mode (R8). -/
inductive ModeResult where
  /-- the operation needs nothing further -/
  | none
  /-- the operand is the accumulator -/
  | acc
  /-- the operand is the `n`-byte value `v`, an unsigned number (no extension is defined, R50) -/
  | imm (v n : Nat)
  /-- the operand lies in memory at the 64-bit address `a` -/
  | ea (a : Word)
  /-- a control-transfer destination -/
  | target (a : Word)
  deriving DecidableEq, Repr

/-- The decoded record of R7. `start`, the address of the instruction's first byte, is the model's addition: it is
one of the candidate values of the program counter in R98. -/
structure DI where
  op : OpClass
  base : Base
  q : Bool
  am : Bool
  off : Offset
  rs : RS
  start : Word
  pa : Word
  next : Word
  deriving DecidableEq, Repr

/-- Why a sequence of instruction bytes is refused (R9, R54). No reason is a claim that the chip traps (R154). -/
inductive Reject where
  /-- a mirrored opcode (Q = 1) with AM = 0 (R85) -/
  | mirroredRowWithoutAm
  /-- AM = 1 on Accumulator or E indirect (R87) -/
  | amOnUnlistedMode
  /-- AM = 1 on a branch (R89) -/
  | amOnBranch
  /-- RS other than 00 on BSR (R89) -/
  | rsOnBsr
  /-- OF other than 00 on a mode without an address parameter (R97) -/
  | ofOnNonAddressMode
  /-- a combination that is not in the table of R61 -/
  | noSuchMode
  /-- an opcode byte that OPC does not map (R54 (e)) -/
  | unmappedOpcode (opcode : Byte)
  /-- the bytes end before the instruction does -/
  | truncated
  deriving DecidableEq, Repr

/-- An instruction as the addressing-mode layer sees it: one constructor per row of spec/opcode_table.json. `op` is
the operation's class, `f` the prefix fields and `p` the parameter. -/
inductive Instr where
  /-- M1 Implied, `- (none)` (R100) -/
  | implied (op : OpClass) (f : Pfx)
  /-- M2 Accumulator, `- (none given in the source)` (R101) -/
  | accumulator (op : OpClass) (f : Pfx)
  /-- M3 Address, `abs` (R102) -/
  | address (op : OpClass) (f : Pfx) (p : BitVec 16)
  /-- M4 Address Long, `long` (R103) -/
  | addressLong (op : OpClass) (f : Pfx) (p : BitVec 32)
  /-- M5 Address Quad, `quad` (R104) -/
  | addressQuad (op : OpClass) (f : Pfx) (p : BitVec 64)
  /-- M6 Immediate, `#byte` (R105) -/
  | immediate (op : OpClass) (f : Pfx) (p : BitVec 8)
  /-- M7 Immediate 16bit, `#word` (R106) -/
  | immediate16 (op : OpClass) (f : Pfx) (p : BitVec 16)
  /-- M8 Immediate 32bit, `#long` (R107) -/
  | immediate32 (op : OpClass) (f : Pfx) (p : BitVec 32)
  /-- M9 Immediate 64bit, `#quad` (R108) -/
  | immediate64 (op : OpClass) (f : Pfx) (p : BitVec 64)
  /-- M10 E indirect, `(E)` (R109) -/
  | eIndirect (op : OpClass) (f : Pfx)
  /-- M11 Zeropage, `zp` (R111) -/
  | zeropage (op : OpClass) (f : Pfx) (p : BitVec 8)
  /-- M12 Zeropage indexed with X, `zp,X` (R112) -/
  | zeropageX (op : OpClass) (f : Pfx) (p : BitVec 8)
  /-- M13 Zeropage indexed with Y, `zp,Y` (R113) -/
  | zeropageY (op : OpClass) (f : Pfx) (p : BitVec 8)
  /-- M14 Absolute 16bit, `abs` (R114) -/
  | absolute16 (op : OpClass) (f : Pfx) (p : BitVec 16)
  /-- M15 Absolute 16bit indexed with X, `abs,X` (R115) -/
  | absolute16X (op : OpClass) (f : Pfx) (p : BitVec 16)
  /-- M16 Absolute 16bit indexed with Y, `abs,Y` (R116) -/
  | absolute16Y (op : OpClass) (f : Pfx) (p : BitVec 16)
  /-- M17 Absolute 32bit, `long` (R117) -/
  | absolute32 (op : OpClass) (f : Pfx) (p : BitVec 32)
  /-- M18 Absolute 32bit indexed with X, `long,X` (R118) -/
  | absolute32X (op : OpClass) (f : Pfx) (p : BitVec 32)
  /-- M19 Absolute 32bit indexed with Y, `long,Y` (R119) -/
  | absolute32Y (op : OpClass) (f : Pfx) (p : BitVec 32)
  /-- M20 Absolute 64bit, `quad` (R120) -/
  | absolute64 (op : OpClass) (f : Pfx) (p : BitVec 64)
  /-- M21 Absolute 64bit indexed with X, `quad,X` (R121) -/
  | absolute64X (op : OpClass) (f : Pfx) (p : BitVec 64)
  /-- M22 Absolute 64bit indexed with Y, `quad,Y` (R122) -/
  | absolute64Y (op : OpClass) (f : Pfx) (p : BitVec 64)
  /-- M23 Zeropage indirect 16bit, `(zp)` (R124) -/
  | zeropageIndirect16 (op : OpClass) (f : Pfx) (p : BitVec 8)
  /-- M24 Zeropage indirect 16bit indexed with Y, `(zp),Y` (R125) -/
  | zeropageIndirect16Y (op : OpClass) (f : Pfx) (p : BitVec 8)
  /-- M25 Zeropage indexed with X indirect 16bit, `(zp,X)` (R126) -/
  | zeropageXIndirect16 (op : OpClass) (f : Pfx) (p : BitVec 8)
  /-- M26 Absolute indirect 16bit, `(abs)` (R127) -/
  | absoluteIndirect16 (op : OpClass) (f : Pfx) (p : BitVec 16)
  /-- M27 Absolute indirect 16bit indexed with Y, `(abs),Y` (R128) -/
  | absoluteIndirect16Y (op : OpClass) (f : Pfx) (p : BitVec 16)
  /-- M28 Absolute indexed with X indirect 16bit, `(abs,X)` (R129) -/
  | absoluteXIndirect16 (op : OpClass) (f : Pfx) (p : BitVec 16)
  /-- M29 Zeropage indirect 32bit, `[zp]` (R130) -/
  | zeropageIndirect32 (op : OpClass) (f : Pfx) (p : BitVec 8)
  /-- M30 Zeropage indirect 32bit indexed with Y, `[zp],Y` (R131) -/
  | zeropageIndirect32Y (op : OpClass) (f : Pfx) (p : BitVec 8)
  /-- M31 Zeropage indexed with X indirect 32bit, `[zp,X]` (R132) -/
  | zeropageXIndirect32 (op : OpClass) (f : Pfx) (p : BitVec 8)
  /-- M32 Absolute indirect 32bit, `[abs]` (R133) -/
  | absoluteIndirect32 (op : OpClass) (f : Pfx) (p : BitVec 16)
  /-- M33 Absolute indirect 32bit indexed with Y, `[abs],Y` (R134) -/
  | absoluteIndirect32Y (op : OpClass) (f : Pfx) (p : BitVec 16)
  /-- M34 Absolute indexed with X indirect 32bit, `[abs,X]` (R135) -/
  | absoluteXIndirect32 (op : OpClass) (f : Pfx) (p : BitVec 16)
  /-- M35 Zeropage indirect 64bit, `[[zp]]` (R136) -/
  | zeropageIndirect64 (op : OpClass) (f : Pfx) (p : BitVec 8)
  /-- M36 Zeropage indirect 64bit indexed with Y, `[[zp]],Y` (R137) -/
  | zeropageIndirect64Y (op : OpClass) (f : Pfx) (p : BitVec 8)
  /-- M37 Zeropage indexed with X indirect 64bit, `[[zp,X]]` (R138) -/
  | zeropageXIndirect64 (op : OpClass) (f : Pfx) (p : BitVec 8)
  /-- M38 Absolute indirect 64bit, `[[abs]]` (R139) -/
  | absoluteIndirect64 (op : OpClass) (f : Pfx) (p : BitVec 16)
  /-- M39 Absolute indirect 64bit indexed with Y, `[[abs]],Y` (R140) -/
  | absoluteIndirect64Y (op : OpClass) (f : Pfx) (p : BitVec 16)
  /-- M40 Absolute indexed with X indirect 64bit, `[[abs,X]]` (R141) -/
  | absoluteXIndirect64 (op : OpClass) (f : Pfx) (p : BitVec 16)
  /-- M41 Relative, `rel` (R143) -/
  | relative (op : OpClass) (f : Pfx) (p : BitVec 8)
  /-- M42 Relative 16bit, `relwide` (R144) -/
  | relative16 (op : OpClass) (f : Pfx) (p : BitVec 16)
  /-- M43 Relative 32bit, `rellong` (R145) -/
  | relative32 (op : OpClass) (f : Pfx) (p : BitVec 32)
  /-- M44 Relative 64bit, `relquad` (R146) -/
  | relative64 (op : OpClass) (f : Pfx) (p : BitVec 64)
  /-- M45 Relative (BSR), `rel` (R147) -/
  | relativeBsr (op : OpClass) (f : Pfx) (p : BitVec 8)
  /-- M46 Relative 16bit (BSR), `relwide` (R148) -/
  | relative16Bsr (op : OpClass) (f : Pfx) (p : BitVec 16)
  /-- M47 Relative 32bit (BSR), `rellong` (R149) -/
  | relative32Bsr (op : OpClass) (f : Pfx) (p : BitVec 32)
  /-- M48 Relative 64bit (BSR), `relquad` (R150) -/
  | relative64Bsr (op : OpClass) (f : Pfx) (p : BitVec 64)
  deriving DecidableEq, Repr

/-- Everything an instruction holds but its parameter. -/
structure Head where
  mode : Mode
  op : OpClass
  f : Pfx
  deriving DecidableEq, Repr

end Sys2Proof
end

