-- ==== Sys2Proof/Config.lean ====
section
/-!
DEFINITION. The implementation parameters of R4. `Params` holds the ones the spec decides and asks a model to keep as
configuration fields (their values stand in Machine/Params.lean); `Platform` holds the OPEN ones that a launch
state provides (R165 (c)); the opaque constants are the free values.
-/

namespace Sys2Proof

/-- `BYTE_ORDER` (R25, R26, decision D4). -/
inductive ByteOrder where
  | little | big
  deriving DecidableEq, Repr

/-- `ZP_WRAP` (R110, decision D6): whether a sum of parameter and register wraps at the parameter's own width. -/
inductive ZpWrap where
  | none | paramWidth
  deriving DecidableEq, Repr

/-- `PTR_WRAP` (R28, decision D7): whether the bytes of an address read from memory wrap inside a 256-byte or a
64 KiB region. -/
inductive PtrWrap where
  | none | page | bank
  deriving DecidableEq, Repr

/-- The decided parameters that R25, R28 and R110 ask a model to keep as configuration fields. -/
structure Params where
  byteOrder : ByteOrder
  zpWrap : ZpWrap
  ptrWrap : PtrWrap
  deriving DecidableEq, Repr

/-- The kinds of access the MemFault hook tells apart (R40). -/
inductive AccessKind where
  /-- prefix, opcode and parameter bytes -/
  | fetch
  /-- the bytes of an address an indirect mode reads -/
  | addressRead
  deriving DecidableEq, Repr

/-- One row of OPC (R48): what an opcode byte selects. `q` is set for a mirrored row (R84). -/
structure OpcEntry where
  byte : Byte
  op : OpClass
  base : Base
  q : Bool
  deriving DecidableEq, Repr

/-- One row of PFX (R47): a sequence of prefix bytes and the fields it carries. -/
structure PfxEntry where
  bytes : List Byte
  am : Bool
  off : Offset
  rs : RS
  deriving DecidableEq, Repr

/-- The candidate values of the program counter during an instruction (R98); `unstated` is the OPEN function itself,
a free value. -/
inductive PcPoint where
  | start | opcode | param | next | unstated
  deriving DecidableEq, Repr

/-- A range of addresses, `lo` to `hi` inclusive, on which accesses of one kind fault (R40). -/
structure FaultRegion where
  lo : Nat
  hi : Nat
  kind : AccessKind
  deriving DecidableEq, Repr

/-- The OPEN parameters a launch state provides (R4, R165 (c)): OPC, PFX, PCREL_BASE, BRANCH_BASE and MemFault. -/
structure Platform where
  opc : List OpcEntry
  pfx : List PfxEntry
  pcrelBase : PcPoint
  branchBase : PcPoint
  memFault : List FaultRegion
  deriving DecidableEq, Repr

/-- Nothing provided: no opcode and no prefix is mapped, the two bases are unstated, and nothing faults (the default
of R40). -/
def Platform.unprovided : Platform :=
  { opc := [], pfx := [], pcrelBase := .unstated, branchBase := .unstated, memFault := [] }

/-- FREE VALUE: `PCREL_BASE(DI)` where the launch state names none of the candidates of R98 (decision D10). -/
opaque Config.pcrelBase : DI → Word

/-- FREE VALUE: `BRANCH_BASE(DI)` where the launch state names none of the candidates (R142, decision D11). -/
opaque Config.branchBase : DI → Word

/-- FREE VALUE: whether the `k`-th instruction, a branch, is taken; the condition is not in the source (R142, N1). -/
opaque Config.branchTaken : Nat → Bool

/-- FREE VALUE: whether the operation of the `k`-th instruction, which was handed no target and is not of class `data`,
transfers control (R52, N1). -/
opaque Config.transfers : Nat → Bool

/-- FREE VALUE: where it then transfers control to. -/
opaque Config.transferTarget : Nat → Word

/-- FREE VALUE: what the operation of the `k`-th instruction, in Accumulator mode, writes to the accumulator (R101). -/
opaque Config.accumulatorResult : Nat → Word

end Sys2Proof
end

