-- ==== Sys2Proof/Machine/Params.lean ====
section
/-!
DEFINITION. The values the spec decides for the parameters it keeps as configuration fields (R4).
-/

namespace Sys2Proof.Machine

/-- Little-endian (D4), no wrap of sums (D6), no wrap of pointer bytes (D7). -/
def params : Params := { byteOrder := .little, zpWrap := .none, ptrWrap := .none }

end Sys2Proof.Machine
end

