-- ==== Sys2Proof/Machine/Bytes.lean ====
section
/-!
DEFINITION. Byte order, decided once (R25, R26): the value of a list of bytes in address order, and the bytes of a
value.
-/

namespace Sys2Proof.Machine

/-- `sum over i of byte(i) * 2^(8i)`. -/
def littleValue : List Byte → Nat
  | [] => 0
  | b :: bs => b.toNat + 256 * littleValue bs

/-- The value of bytes given in address order (R25, R26). -/
def assemble (o : ByteOrder) (bs : List Byte) : Nat :=
  match o with
  | .little => littleValue bs
  | .big => littleValue bs.reverse

/-- The low `n` bytes of `v`, least significant first. -/
def littleBytes : Nat → Nat → List Byte
  | 0, _ => []
  | n + 1, v => BitVec.ofNat 8 v :: littleBytes n (v / 256)

/-- The low `n` bytes of `v` in address order. -/
def bytesOf (o : ByteOrder) (n v : Nat) : List Byte :=
  match o with
  | .little => littleBytes n v
  | .big => (littleBytes n v).reverse

end Sys2Proof.Machine
end

