-- ==== Sys2Proof/Machine/ModeTable.lean ====
section
/-!
DEFINITION. The table of the 48 modes (spec/opcode_table.json, one row per mode), the parts of an instruction, and
`resolve`, the table of R61 that selects the final mode.
-/

namespace Sys2Proof.Machine

/-- Which operation classes a row admits. -/
inductive OpReq where
  | any | data | jump | dataOrJump | branch | bsr
  deriving DecidableEq, Repr

/-- Which values of AM a row admits. -/
inductive AmReq where
  | either | exactly (b : Bool)
  deriving DecidableEq, Repr

/-- Which values of RS a row admits. -/
inductive RsReq where
  | any | exactly (r : RS)
  deriving DecidableEq, Repr

/-- The columns of a row of spec/opcode_table.json: base, Q, op, AM, RS, whether OF other than 00 is admitted, and the
parameter length in bytes. -/
structure ModeRow where
  base : Base
  q : Bool
  op : OpReq
  am : AmReq
  rs : RsReq
  takesOffset : Bool
  paramLen : Nat
  deriving DecidableEq, Repr

/-- The rows of spec/opcode_table.json. -/
def modeRow : Mode → ModeRow
  | .implied => ⟨.implied, false, .any, .either, .any, false, 0⟩
  | .accumulator => ⟨.accumulator, false, .any, .exactly false, .any, false, 0⟩
  | .address => ⟨.address, false, .jump, .exactly false, .any, true, 2⟩
  | .addressLong => ⟨.addressUnknown, false, .jump, .exactly true, .any, true, 4⟩
  | .addressQuad => ⟨.address, false, .jump, .exactly true, .any, true, 8⟩
  | .immediate => ⟨.imm, false, .data, .either, .exactly .rs00, false, 1⟩
  | .immediate16 => ⟨.imm, false, .data, .either, .exactly .rs01, false, 2⟩
  | .immediate32 => ⟨.imm, false, .data, .either, .exactly .rs10, false, 4⟩
  | .immediate64 => ⟨.imm, false, .data, .either, .exactly .rs11, false, 8⟩
  | .eIndirect => ⟨.eind, false, .data, .exactly false, .any, false, 0⟩
  | .zeropage => ⟨.zp, false, .data, .exactly false, .any, true, 1⟩
  | .zeropageX => ⟨.zpX, false, .data, .exactly false, .any, true, 1⟩
  | .zeropageY => ⟨.zpY, false, .data, .exactly false, .any, true, 1⟩
  | .absolute16 => ⟨.abs, false, .data, .exactly false, .any, true, 2⟩
  | .absolute16X => ⟨.absX, false, .data, .exactly false, .any, true, 2⟩
  | .absolute16Y => ⟨.absY, false, .data, .exactly false, .any, true, 2⟩
  | .absolute32 => ⟨.zp, false, .data, .exactly true, .any, true, 4⟩
  | .absolute32X => ⟨.zpX, false, .data, .exactly true, .any, true, 4⟩
  | .absolute32Y => ⟨.zpY, false, .data, .exactly true, .any, true, 4⟩
  | .absolute64 => ⟨.abs, false, .data, .exactly true, .any, true, 8⟩
  | .absolute64X => ⟨.absX, false, .data, .exactly true, .any, true, 8⟩
  | .absolute64Y => ⟨.absY, false, .data, .exactly true, .any, true, 8⟩
  | .zeropageIndirect16 => ⟨.zpInd, false, .dataOrJump, .exactly false, .any, true, 1⟩
  | .zeropageIndirect16Y => ⟨.zpIndY, false, .dataOrJump, .exactly false, .any, true, 1⟩
  | .zeropageXIndirect16 => ⟨.zpXInd, false, .dataOrJump, .exactly false, .any, true, 1⟩
  | .absoluteIndirect16 => ⟨.absInd, false, .dataOrJump, .exactly false, .any, true, 2⟩
  | .absoluteIndirect16Y => ⟨.absIndY, false, .dataOrJump, .exactly false, .any, true, 2⟩
  | .absoluteXIndirect16 => ⟨.absXInd, false, .dataOrJump, .exactly false, .any, true, 2⟩
  | .zeropageIndirect32 => ⟨.zpInd, false, .dataOrJump, .exactly true, .any, true, 1⟩
  | .zeropageIndirect32Y => ⟨.zpIndY, false, .dataOrJump, .exactly true, .any, true, 1⟩
  | .zeropageXIndirect32 => ⟨.zpXInd, false, .dataOrJump, .exactly true, .any, true, 1⟩
  | .absoluteIndirect32 => ⟨.absInd, false, .dataOrJump, .exactly true, .any, true, 2⟩
  | .absoluteIndirect32Y => ⟨.absIndY, false, .dataOrJump, .exactly true, .any, true, 2⟩
  | .absoluteXIndirect32 => ⟨.absXInd, false, .dataOrJump, .exactly true, .any, true, 2⟩
  | .zeropageIndirect64 => ⟨.zpInd, true, .dataOrJump, .exactly true, .any, true, 1⟩
  | .zeropageIndirect64Y => ⟨.zpIndY, true, .dataOrJump, .exactly true, .any, true, 1⟩
  | .zeropageXIndirect64 => ⟨.zpXInd, true, .dataOrJump, .exactly true, .any, true, 1⟩
  | .absoluteIndirect64 => ⟨.absInd, true, .dataOrJump, .exactly true, .any, true, 2⟩
  | .absoluteIndirect64Y => ⟨.absIndY, true, .dataOrJump, .exactly true, .any, true, 2⟩
  | .absoluteXIndirect64 => ⟨.absXInd, true, .dataOrJump, .exactly true, .any, true, 2⟩
  | .relative => ⟨.rel, false, .branch, .exactly false, .exactly .rs00, false, 1⟩
  | .relative16 => ⟨.rel, false, .branch, .exactly false, .exactly .rs01, false, 2⟩
  | .relative32 => ⟨.rel, false, .branch, .exactly false, .exactly .rs10, false, 4⟩
  | .relative64 => ⟨.rel, false, .branch, .exactly false, .exactly .rs11, false, 8⟩
  | .relativeBsr => ⟨.rel, false, .bsr, .exactly false, .exactly .rs00, false, 1⟩
  | .relative16Bsr => ⟨.relwide, false, .bsr, .exactly false, .exactly .rs00, false, 2⟩
  | .relative32Bsr => ⟨.rel, false, .bsr, .exactly true, .exactly .rs00, false, 4⟩
  | .relative64Bsr => ⟨.relwide, false, .bsr, .exactly true, .exactly .rs00, false, 8⟩

/-- `ParamLen(m)` (R51). -/
def paramLen (m : Mode) : Nat := (modeRow m).paramLen

/-- The op class satisfies the column. -/
def OpReq.admits : OpReq → OpClass → Bool
  | .any, _ => true
  | .data, o => o == .data
  | .jump, o => o == .jump
  | .dataOrJump, o => o == .data || o == .jump
  | .branch, o => o == .branch
  | .bsr, o => o == .bsr

/-- The bit AM satisfies the column. -/
def AmReq.admits : AmReq → Bool → Bool
  | .either, _ => true
  | .exactly b, a => a == b

/-- The field RS satisfies the column. -/
def RsReq.admits : RsReq → RS → Bool
  | .any, _ => true
  | .exactly r, x => x == r

/-- The indirect base modes, the only ones that have mirrored opcodes (R84). -/
def indirectBase : Base → Bool
  | .zpInd | .zpIndY | .zpXInd | .absInd | .absIndY | .absXInd => true
  | _ => false

/-- The indirect mode of a base by the width of the address it reads: 16 bits, 32 bits (AM), 64 bits (mirrored row
with AM); rows M23 to M40 of R61. -/
def indirectMode : Base → Bool → Bool → Option Mode
  | .zpInd, false, false => some .zeropageIndirect16
  | .zpInd, false, true => some .zeropageIndirect32
  | .zpInd, true, true => some .zeropageIndirect64
  | .zpIndY, false, false => some .zeropageIndirect16Y
  | .zpIndY, false, true => some .zeropageIndirect32Y
  | .zpIndY, true, true => some .zeropageIndirect64Y
  | .zpXInd, false, false => some .zeropageXIndirect16
  | .zpXInd, false, true => some .zeropageXIndirect32
  | .zpXInd, true, true => some .zeropageXIndirect64
  | .absInd, false, false => some .absoluteIndirect16
  | .absInd, false, true => some .absoluteIndirect32
  | .absInd, true, true => some .absoluteIndirect64
  | .absIndY, false, false => some .absoluteIndirect16Y
  | .absIndY, false, true => some .absoluteIndirect32Y
  | .absIndY, true, true => some .absoluteIndirect64Y
  | .absXInd, false, false => some .absoluteXIndirect16
  | .absXInd, false, true => some .absoluteXIndirect32
  | .absXInd, true, true => some .absoluteXIndirect64
  | _, _, _ => none

/-- Resolution of the indirect bases (R61, R84, R85). -/
def resolveIndirect (op : OpClass) (base : Base) (q am : Bool) : Except Reject Mode :=
  if q && !am then .error .mirroredRowWithoutAm
  else if op == .data || op == .jump then
    match indirectMode base q am with
    | some m => .ok m
    | none => .error .noSuchMode
  else .error .noSuchMode

/-- Resolution of the direct bases (R62 to R67, R111 to R122): the mode without AM, the mode with it. -/
def resolveDirect (op : OpClass) (q am : Bool) (m0 m1 : Mode) : Except Reject Mode :=
  if op == .data && !q then .ok (if am then m1 else m0) else .error .noSuchMode

/-- Resolution of `rel` and `relwide` (R82, R83, R89): a branch takes its width from RS, BSR from its base and AM. -/
def resolveRelative (op : OpClass) (base : Base) (q am : Bool) (rs : RS) : Except Reject Mode :=
  match op, base, q with
  | .branch, .rel, false =>
    if am then .error .amOnBranch
    else .ok (match rs with
      | .rs00 => .relative
      | .rs01 => .relative16
      | .rs10 => .relative32
      | .rs11 => .relative64)
  | .bsr, .rel, false =>
    if rs != .rs00 then .error .rsOnBsr else .ok (if am then .relative32Bsr else .relativeBsr)
  | .bsr, .relwide, false =>
    if rs != .rs00 then .error .rsOnBsr else .ok (if am then .relative64Bsr else .relative16Bsr)
  | _, _, _ => .error .noSuchMode

/-- Resolution of the modes that read nothing, immediates and the Address family (R61, R80, R81, R87, R88). -/
def resolveNoAddress (op : OpClass) (base : Base) (q am : Bool) (rs : RS) : Except Reject Mode :=
  match op, base, q with
  | _, .implied, false => .ok .implied
  | _, .accumulator, false => if am then .error .amOnUnlistedMode else .ok .accumulator
  | .jump, .address, false => .ok (if am then .addressQuad else .address)
  | .jump, .addressUnknown, false => if am then .ok .addressLong else .error .noSuchMode
  | .data, .imm, false =>
    .ok (match rs with
      | .rs00 => .immediate
      | .rs01 => .immediate16
      | .rs10 => .immediate32
      | .rs11 => .immediate64)
  | .data, .eind, false => if am then .error .amOnUnlistedMode else .ok .eIndirect
  | _, _, _ => .error .noSuchMode

/-- `Resolve(op, base, Q, AM, RS)` (R61): the final mode, or the reason of the refusal. -/
def resolve (op : OpClass) (base : Base) (q am : Bool) (rs : RS) : Except Reject Mode :=
  match base with
  | .zp => resolveDirect op q am .zeropage .absolute32
  | .zpX => resolveDirect op q am .zeropageX .absolute32X
  | .zpY => resolveDirect op q am .zeropageY .absolute32Y
  | .abs => resolveDirect op q am .absolute16 .absolute64
  | .absX => resolveDirect op q am .absolute16X .absolute64X
  | .absY => resolveDirect op q am .absolute16Y .absolute64Y
  | .zpInd | .zpIndY | .zpXInd | .absInd | .absIndY | .absXInd => resolveIndirect op base q am
  | .rel | .relwide => resolveRelative op base q am rs
  | .implied | .accumulator | .address | .addressUnknown | .imm | .eind => resolveNoAddress op base q am rs

/-- The final mode an opcode and its prefix fields select: `resolve`, then the applicability of OF (R97). -/
def classify (o : OpcEntry) (f : Pfx) : Except Reject Mode :=
  match resolve o.op o.base o.q f.am f.rs with
  | .error r => .error r
  | .ok m => if f.off != .none && !(modeRow m).takesOffset then .error .ofOnNonAddressMode else .ok m

/-- The mode, op class, prefix fields and parameter (as a number) of an instruction. -/
def instrParts : Instr → Head × Nat
  | .implied op f => (⟨.implied, op, f⟩, 0)
  | .accumulator op f => (⟨.accumulator, op, f⟩, 0)
  | .address op f p => (⟨.address, op, f⟩, p.toNat)
  | .addressLong op f p => (⟨.addressLong, op, f⟩, p.toNat)
  | .addressQuad op f p => (⟨.addressQuad, op, f⟩, p.toNat)
  | .immediate op f p => (⟨.immediate, op, f⟩, p.toNat)
  | .immediate16 op f p => (⟨.immediate16, op, f⟩, p.toNat)
  | .immediate32 op f p => (⟨.immediate32, op, f⟩, p.toNat)
  | .immediate64 op f p => (⟨.immediate64, op, f⟩, p.toNat)
  | .eIndirect op f => (⟨.eIndirect, op, f⟩, 0)
  | .zeropage op f p => (⟨.zeropage, op, f⟩, p.toNat)
  | .zeropageX op f p => (⟨.zeropageX, op, f⟩, p.toNat)
  | .zeropageY op f p => (⟨.zeropageY, op, f⟩, p.toNat)
  | .absolute16 op f p => (⟨.absolute16, op, f⟩, p.toNat)
  | .absolute16X op f p => (⟨.absolute16X, op, f⟩, p.toNat)
  | .absolute16Y op f p => (⟨.absolute16Y, op, f⟩, p.toNat)
  | .absolute32 op f p => (⟨.absolute32, op, f⟩, p.toNat)
  | .absolute32X op f p => (⟨.absolute32X, op, f⟩, p.toNat)
  | .absolute32Y op f p => (⟨.absolute32Y, op, f⟩, p.toNat)
  | .absolute64 op f p => (⟨.absolute64, op, f⟩, p.toNat)
  | .absolute64X op f p => (⟨.absolute64X, op, f⟩, p.toNat)
  | .absolute64Y op f p => (⟨.absolute64Y, op, f⟩, p.toNat)
  | .zeropageIndirect16 op f p => (⟨.zeropageIndirect16, op, f⟩, p.toNat)
  | .zeropageIndirect16Y op f p => (⟨.zeropageIndirect16Y, op, f⟩, p.toNat)
  | .zeropageXIndirect16 op f p => (⟨.zeropageXIndirect16, op, f⟩, p.toNat)
  | .absoluteIndirect16 op f p => (⟨.absoluteIndirect16, op, f⟩, p.toNat)
  | .absoluteIndirect16Y op f p => (⟨.absoluteIndirect16Y, op, f⟩, p.toNat)
  | .absoluteXIndirect16 op f p => (⟨.absoluteXIndirect16, op, f⟩, p.toNat)
  | .zeropageIndirect32 op f p => (⟨.zeropageIndirect32, op, f⟩, p.toNat)
  | .zeropageIndirect32Y op f p => (⟨.zeropageIndirect32Y, op, f⟩, p.toNat)
  | .zeropageXIndirect32 op f p => (⟨.zeropageXIndirect32, op, f⟩, p.toNat)
  | .absoluteIndirect32 op f p => (⟨.absoluteIndirect32, op, f⟩, p.toNat)
  | .absoluteIndirect32Y op f p => (⟨.absoluteIndirect32Y, op, f⟩, p.toNat)
  | .absoluteXIndirect32 op f p => (⟨.absoluteXIndirect32, op, f⟩, p.toNat)
  | .zeropageIndirect64 op f p => (⟨.zeropageIndirect64, op, f⟩, p.toNat)
  | .zeropageIndirect64Y op f p => (⟨.zeropageIndirect64Y, op, f⟩, p.toNat)
  | .zeropageXIndirect64 op f p => (⟨.zeropageXIndirect64, op, f⟩, p.toNat)
  | .absoluteIndirect64 op f p => (⟨.absoluteIndirect64, op, f⟩, p.toNat)
  | .absoluteIndirect64Y op f p => (⟨.absoluteIndirect64Y, op, f⟩, p.toNat)
  | .absoluteXIndirect64 op f p => (⟨.absoluteXIndirect64, op, f⟩, p.toNat)
  | .relative op f p => (⟨.relative, op, f⟩, p.toNat)
  | .relative16 op f p => (⟨.relative16, op, f⟩, p.toNat)
  | .relative32 op f p => (⟨.relative32, op, f⟩, p.toNat)
  | .relative64 op f p => (⟨.relative64, op, f⟩, p.toNat)
  | .relativeBsr op f p => (⟨.relativeBsr, op, f⟩, p.toNat)
  | .relative16Bsr op f p => (⟨.relative16Bsr, op, f⟩, p.toNat)
  | .relative32Bsr op f p => (⟨.relative32Bsr, op, f⟩, p.toNat)
  | .relative64Bsr op f p => (⟨.relative64Bsr, op, f⟩, p.toNat)

/-- The mode, op class and prefix fields of an instruction. -/
def instrHead (i : Instr) : Head := (instrParts i).1

/-- The parameter of an instruction as an unsigned number; 0 where it has none. -/
def instrParam (i : Instr) : Nat := (instrParts i).2

/-- The instruction with a given head whose parameter is `v`, taken modulo its width. -/
def mkInstr (h : Head) (v : Nat) : Instr :=
  match h.mode with
  | .implied => .implied h.op h.f
  | .accumulator => .accumulator h.op h.f
  | .address => .address h.op h.f (BitVec.ofNat 16 v)
  | .addressLong => .addressLong h.op h.f (BitVec.ofNat 32 v)
  | .addressQuad => .addressQuad h.op h.f (BitVec.ofNat 64 v)
  | .immediate => .immediate h.op h.f (BitVec.ofNat 8 v)
  | .immediate16 => .immediate16 h.op h.f (BitVec.ofNat 16 v)
  | .immediate32 => .immediate32 h.op h.f (BitVec.ofNat 32 v)
  | .immediate64 => .immediate64 h.op h.f (BitVec.ofNat 64 v)
  | .eIndirect => .eIndirect h.op h.f
  | .zeropage => .zeropage h.op h.f (BitVec.ofNat 8 v)
  | .zeropageX => .zeropageX h.op h.f (BitVec.ofNat 8 v)
  | .zeropageY => .zeropageY h.op h.f (BitVec.ofNat 8 v)
  | .absolute16 => .absolute16 h.op h.f (BitVec.ofNat 16 v)
  | .absolute16X => .absolute16X h.op h.f (BitVec.ofNat 16 v)
  | .absolute16Y => .absolute16Y h.op h.f (BitVec.ofNat 16 v)
  | .absolute32 => .absolute32 h.op h.f (BitVec.ofNat 32 v)
  | .absolute32X => .absolute32X h.op h.f (BitVec.ofNat 32 v)
  | .absolute32Y => .absolute32Y h.op h.f (BitVec.ofNat 32 v)
  | .absolute64 => .absolute64 h.op h.f (BitVec.ofNat 64 v)
  | .absolute64X => .absolute64X h.op h.f (BitVec.ofNat 64 v)
  | .absolute64Y => .absolute64Y h.op h.f (BitVec.ofNat 64 v)
  | .zeropageIndirect16 => .zeropageIndirect16 h.op h.f (BitVec.ofNat 8 v)
  | .zeropageIndirect16Y => .zeropageIndirect16Y h.op h.f (BitVec.ofNat 8 v)
  | .zeropageXIndirect16 => .zeropageXIndirect16 h.op h.f (BitVec.ofNat 8 v)
  | .absoluteIndirect16 => .absoluteIndirect16 h.op h.f (BitVec.ofNat 16 v)
  | .absoluteIndirect16Y => .absoluteIndirect16Y h.op h.f (BitVec.ofNat 16 v)
  | .absoluteXIndirect16 => .absoluteXIndirect16 h.op h.f (BitVec.ofNat 16 v)
  | .zeropageIndirect32 => .zeropageIndirect32 h.op h.f (BitVec.ofNat 8 v)
  | .zeropageIndirect32Y => .zeropageIndirect32Y h.op h.f (BitVec.ofNat 8 v)
  | .zeropageXIndirect32 => .zeropageXIndirect32 h.op h.f (BitVec.ofNat 8 v)
  | .absoluteIndirect32 => .absoluteIndirect32 h.op h.f (BitVec.ofNat 16 v)
  | .absoluteIndirect32Y => .absoluteIndirect32Y h.op h.f (BitVec.ofNat 16 v)
  | .absoluteXIndirect32 => .absoluteXIndirect32 h.op h.f (BitVec.ofNat 16 v)
  | .zeropageIndirect64 => .zeropageIndirect64 h.op h.f (BitVec.ofNat 8 v)
  | .zeropageIndirect64Y => .zeropageIndirect64Y h.op h.f (BitVec.ofNat 8 v)
  | .zeropageXIndirect64 => .zeropageXIndirect64 h.op h.f (BitVec.ofNat 8 v)
  | .absoluteIndirect64 => .absoluteIndirect64 h.op h.f (BitVec.ofNat 16 v)
  | .absoluteIndirect64Y => .absoluteIndirect64Y h.op h.f (BitVec.ofNat 16 v)
  | .absoluteXIndirect64 => .absoluteXIndirect64 h.op h.f (BitVec.ofNat 16 v)
  | .relative => .relative h.op h.f (BitVec.ofNat 8 v)
  | .relative16 => .relative16 h.op h.f (BitVec.ofNat 16 v)
  | .relative32 => .relative32 h.op h.f (BitVec.ofNat 32 v)
  | .relative64 => .relative64 h.op h.f (BitVec.ofNat 64 v)
  | .relativeBsr => .relativeBsr h.op h.f (BitVec.ofNat 8 v)
  | .relative16Bsr => .relative16Bsr h.op h.f (BitVec.ofNat 16 v)
  | .relative32Bsr => .relative32Bsr h.op h.f (BitVec.ofNat 32 v)
  | .relative64Bsr => .relative64Bsr h.op h.f (BitVec.ofNat 64 v)

end Sys2Proof.Machine
end

