-- ==== Sys2Proof/WellFormed.lean ====
section
/-!
DEFINITION. Which instructions are well formed: the columns of spec/opcode_table.json (op, AM, RS, OF) and R46 (an
instruction without prefix bytes has all prefix fields 0).
-/

namespace Sys2Proof

/-- The op class is one the row of the mode admits. -/
def Head.opOk (h : Head) : Bool := (Machine.modeRow h.mode).op.admits h.op

/-- AM is a value the row of the mode admits. -/
def Head.amOk (h : Head) : Bool := (Machine.modeRow h.mode).am.admits h.f.am

/-- RS is a value the row of the mode admits. -/
def Head.rsOk (h : Head) : Bool := (Machine.modeRow h.mode).rs.admits h.f.rs

/-- OF other than 00 stands only on a mode whose parameter is an address (R97). -/
def Head.ofOk (h : Head) : Bool := h.f.off == .none || (Machine.modeRow h.mode).takesOffset

/-- Without prefix bytes all prefix fields are 0 (R46). -/
def Pfx.fieldsOk (f : Pfx) : Bool := f.len != 0 || (!f.am && f.off == .none && f.rs == .rs00)

/-- A well-formed head passes the five checks. -/
def Head.wf (h : Head) : Bool := h.opOk && h.amOk && h.rsOk && h.ofOk && h.f.fieldsOk

/-- A well-formed instruction. -/
def Instr.wf (i : Instr) : Bool := (Machine.instrHead i).wf

end Sys2Proof
end

