-- ==== Sys2Proof/Decode.lean ====
section
/-!
DEFINITION. The decoder, total on any bytes and refusing by name, for the OPC and PFX a platform provides; then the
encoder, written from the same maps. An instruction is prefix bytes, one opcode byte, the parameter (R41).
-/

namespace Sys2Proof

open Machine

/-- The prefix information at the head of `bs` (PFX, R47) and the bytes after it. The first entry that agrees with
`bs` decides: if all its bytes stand there it is the prefix, if `bs` ends inside it the bytes are too few. An entry
of no bytes is no prefix (R46). Where no entry agrees there is no prefix. -/
def decodePfx : List PfxEntry → List Byte → Except Reject (Pfx × List Byte)
  | [], bs => .ok (Pfx.absent, bs)
  | e :: es, bs =>
    if e.bytes = [] then decodePfx es bs
    else if e.bytes.isPrefixOf bs then
      .ok ({ am := e.am, off := e.off, rs := e.rs, len := e.bytes.length }, bs.drop e.bytes.length)
    else if bs.isPrefixOf e.bytes then .error .truncated
    else decodePfx es bs

/-- The row of OPC for an opcode byte (R48). -/
def findOpcode (c : Platform) (b : Byte) : Option OpcEntry := c.opc.find? (fun o => o.byte == b)

/-- The instruction at the head of `bs` and the bytes after it: prefix, opcode, mode (R61, R97), then `ParamLen`
parameter bytes assembled in byte order (R49, R51). -/
def decode (c : Platform) (bs : List Byte) : Except Reject (Instr × List Byte) :=
  match decodePfx c.pfx bs with
  | .error r => .error r
  | .ok (_, []) => .error .truncated
  | .ok (f, b :: rest) =>
    match findOpcode c b with
    | none => .error (.unmappedOpcode b)
    | some o =>
      match classify o f with
      | .error r => .error r
      | .ok m =>
        if rest.length < paramLen m then .error .truncated
        else .ok (mkInstr ⟨m, o.op, f⟩ (assemble params.byteOrder (rest.take (paramLen m))), rest.drop (paramLen m))

/-- The prefix bytes of given fields and length: none for a length of 0, else the first entry of PFX that has them. -/
def encodePfx (c : Platform) (f : Pfx) : Option (List Byte) :=
  if f.len = 0 then (if f = Pfx.absent then some [] else none)
  else (c.pfx.find? (fun e => e.am == f.am && e.off == f.off && e.rs == f.rs && e.bytes.length == f.len)).map
    PfxEntry.bytes

/-- The first opcode byte of OPC that selects a mode's base and mirror bit for an op class. -/
def encodeOpcode (c : Platform) (h : Head) : Option Byte :=
  (c.opc.find? (fun o => o.op == h.op && o.base == (modeRow h.mode).base && o.q == (modeRow h.mode).q)).map
    OpcEntry.byte

/-- The parameter bytes of an instruction, in byte order (R25). -/
def encodeParam (i : Instr) : List Byte :=
  bytesOf params.byteOrder (paramLen (instrHead i).mode) (instrParam i)

/-- The bytes of an instruction: prefix, opcode, parameter (R41); none where the platform's maps give it no bytes. -/
def encode (c : Platform) (i : Instr) : Option (List Byte) :=
  match encodePfx c (instrHead i).f, encodeOpcode c (instrHead i) with
  | some pre, some b => some (pre ++ b :: encodeParam i)
  | _, _ => none

/-- The maps a platform provides are unambiguous: no opcode byte has two rows, no prefix agrees with another entry
or begins with an opcode byte, and mirrored rows are rows of indirect bases (R84). -/
def Platform.unambiguous (c : Platform) : Bool :=
  decide (c.opc.Pairwise (fun x y => x.byte ≠ y.byte)) &&
  decide (c.pfx.Pairwise (fun x y => x.bytes.isPrefixOf y.bytes = false ∧ y.bytes.isPrefixOf x.bytes = false)) &&
  c.pfx.all (fun e => match e.bytes with
    | [] => false
    | b :: _ => c.opc.all (fun o => o.byte != b)) &&
  c.opc.all (fun o => !o.q || indirectBase o.base)

/-- The mirror of an opcode byte (R53): `$h1` is mirrored to `$h3`, `$h2` to `$h7`; the other rows have no mirror the
source names (N9). The reading of "row LSB n" as the low hexadecimal digit is decision D17, assumption 36. -/
def mirrorByte (b : Byte) : Option Byte :=
  if b.extractLsb' 0 4 = 1#4 then some (b.extractLsb' 4 4 ++ 3#4)
  else if b.extractLsb' 0 4 = 2#4 then some (b.extractLsb' 4 4 ++ 7#4)
  else none

/-- The mirrored rows of a list of rows (R84): each unmirrored row of an indirect base, at the mirror of its byte, with
`Q = 1`. -/
def mirrorRows (l : List OpcEntry) : List OpcEntry :=
  l.filterMap (fun o =>
    if indirectBase o.base && !o.q then (mirrorByte o.byte).map (fun b => { o with byte := b, q := true }) else none)

/-- The opcode bytes that the spec writes in its instance I-6502 (95_test_vectors.md section 3, G12), the only opcode
bytes it shows anywhere, without the mirrored ones. PRESUMED, assumption 12. -/
def opc6502Base : List OpcEntry :=
  [⟨0xA9#8, .data, .imm, false⟩, ⟨0xA5#8, .data, .zp, false⟩, ⟨0xB5#8, .data, .zpX, false⟩,
   ⟨0xAD#8, .data, .abs, false⟩, ⟨0xBD#8, .data, .absX, false⟩, ⟨0xB9#8, .data, .absY, false⟩,
   ⟨0xA1#8, .data, .zpXInd, false⟩, ⟨0xB1#8, .data, .zpIndY, false⟩, ⟨0xB2#8, .data, .zpInd, false⟩,
   ⟨0x4C#8, .jump, .address, false⟩, ⟨0x6C#8, .jump, .absInd, false⟩, ⟨0xD0#8, .branch, .rel, false⟩]

/-- The opcodes of instance I-6502 with their mirrors by R53 (`A3`, `B3`, `B7`). -/
def opc6502 : List OpcEntry := opc6502Base ++ mirrorRows opc6502Base

/-- A platform with the opcodes of instance I-6502 and no prefix (the spec gives no prefix byte a value). -/
def Platform.i6502 : Platform := { Platform.unprovided with opc := opc6502 }

/-- The bytes of a word of spec/opcode_table.json: its opcode in bits 7..0, its parameter bytes above it in address
order, every bit above `nbits` zero, up to the longest instruction without a prefix (9 bytes). -/
def tableBytes (nbits w : Nat) : List Byte := littleBytes 9 (w % 2 ^ nbits)

/-- The instruction the decoder reads from a word of the opcode table, under the opcode bytes of instance I-6502. -/
def decodeTableWord (nbits w : Nat) : Option Instr :=
  match decode Platform.i6502 (tableBytes nbits w) with
  | .ok (i, _) => some i
  | .error _ => none

end Sys2Proof
end

