-- ==== Sys2Proof/Machine/State.lean ====
section
/-!
DEFINITION. The state of the machine as plain data: the registers the spec names (R10 to R16), memory (R23), the OPEN
parameters the launch state provides (R165), and the model's own record of what the addressing modes handed to the
operations. Also the reasons a step can stop.
-/

namespace Sys2Proof.Machine

/-- Memory: the bytes that have a value, by address. -/
abbrev Mem := List Host.Cell

/-- What an unlisted address reads as: nothing. The spec gives memory no initial contents (R164) and asks the launch
state for every byte an instruction reads (R165 (b)). DESIGN CHOICE, assumption 4. -/
def Mem.unlisted : Option Byte := none

/-- The canonical form: addresses strictly rising and below 2^64. -/
abbrev Mem.wf (m : Mem) : Prop := m.Pairwise (fun x y => x.1 < y.1) ∧ ∀ c ∈ m, c.1 < 2 ^ 64

/-- What one instruction hands to its operation: the operation's class, the field RS (passed on untouched, R61, U7)
and the result of the addressing mode (R8). -/
structure Delivery where
  op : OpClass
  rs : RS
  result : ModeResult
  deriving DecidableEq, Repr

/-- The state. `delivered` and `free` are the model's own (assumption 18). -/
structure State where
  /-- PC, the program counter (R10): the address of the next instruction's first byte -/
  pc : Word
  /-- XR (R11) -/
  xr : Word
  /-- YR (R12) -/
  yr : Word
  /-- E (R13) -/
  e : Word
  /-- SR, the stack pointer (R14, C6) -/
  sr : Word
  /-- BR, the base register (R15) -/
  br : Word
  /-- the Accumulator (R16); its width is the model's, assumption 2 -/
  acc : Word
  /-- memory (R23) -/
  mem : Mem
  /-- the OPEN parameters the launch state provides (R165 (c)), assumption 11 -/
  platform : Platform
  /-- what the addressing modes delivered so far, oldest first -/
  delivered : List Delivery
  /-- the index of the next free values; every instruction advances it by one -/
  free : Nat
  deriving DecidableEq, Repr

/-- Why the machine stops with a fault. `instr` is the address of the instruction that faulted (R153). -/
inductive Fault where
  /-- The MemFault hook holds for a byte the instruction would read (R40, R153). Raised by `State.byteAt`. Safe: the
  run claims nothing more. -/
  | memFault (instr addr : Word) (kind : AccessKind)
  /-- A byte the instruction would read has no value: the launch state did not provide it (R165 (b), D26). Raised by
  `State.byteAt`. Safe: the run claims nothing more. -/
  | noValue (instr addr : Word) (kind : AccessKind)
  deriving DecidableEq, Repr

/-- Why the machine refuses to go on. -/
inductive Refusal where
  /-- an instruction without a meaning in `exec`, by its mnemonic; no arm uses it. Safe. -/
  | notModelled (mnemonic : String)
  /-- the bytes at the program counter are no instruction the spec gives a meaning (R9, R54). Raised by `step`. Safe:
  the run claims nothing more. -/
  | undecodable (instr : Word) (why : Reject)
  deriving DecidableEq, Repr

/-- How a step ends. -/
abbrev Result := Host.Outcome State Fault Refusal

/-- The state after reset. The spec gives no register a value (R22, R164): each is 0, DESIGN CHOICE, assumption 3.
Memory lists nothing and the OPEN parameters are not provided. -/
def State.reset : State :=
  { pc := 0, xr := 0, yr := 0, e := 0, sr := 0, br := 0, acc := 0, mem := [], platform := Platform.unprovided,
    delivered := [], free := 0 }

end Sys2Proof.Machine
end

