-- ==== Sys2Proof/Machine/Flags.lean ====
section
/-!
DEFINITION. Flags: the spec names none, and no addressing mode reads or writes one (R19). What a branch tests is not
in the source (N1, N5), so whether it is taken is a free value. From it follows where an instruction leaves PC.
-/

namespace Sys2Proof.Machine

/-- Whether the branch executed as the `k`-th instruction is taken (R142: "Whether and when the transfer is taken" is
not in the source). Free value, assumption 14. -/
def branchCondition (k : Nat) : Bool := Config.branchTaken k

/-- PC after the operation of the `k`-th instruction, which was handed neither an address nor an immediate: a data
operation does not transfer control (R52); whether another one does, and where to, is free. Assumption 15. -/
def pcWithoutTarget (op : OpClass) (next : Word) (k : Nat) : Word :=
  if op = .data then next else if Config.transfers k then Config.transferTarget k else next

/-- PC after the `k`-th instruction, of class `op`, whose mode gave `r`; `next` is the address after it (R10, R52). A
`Target` is a control-transfer destination (R8): a branch takes it or not, every other class goes there; an operation
of class jump uses an effective address as its target (R61). Assumption 13. -/
def pcAfter (op : OpClass) (next : Word) (r : ModeResult) (k : Nat) : Word :=
  match r with
  | .target a => if op = .branch then (if branchCondition k then a else next) else a
  | .ea a => if op = .jump then a else next
  | .imm _ _ => next
  | .acc => pcWithoutTarget op next k
  | .none => pcWithoutTarget op next k

end Sys2Proof.Machine
end

