-- ==== Sys2Proof/Machine/Ops.lean ====
section
/-!
DEFINITION. The named operations over memory and registers: one byte of memory, the MemFault hook, MemRead and
MemWrite, the decoded record of an instruction, the two OPEN program-counter values, handing a result to the
operation, and the raise.
-/

namespace Sys2Proof.Machine

/-- The byte at an address, if it has a value. -/
def Mem.read : Mem → Nat → Option Byte
  | [], _ => Mem.unlisted
  | c :: m, a => if c.1 = a then some c.2 else Mem.read m a

/-- Memory with one byte written; the canonical form is kept. -/
def Mem.write : Mem → Nat → Byte → Mem
  | [], a, b => [(a, b)]
  | c :: m, a, b =>
    if a < c.1 then (a, b) :: c :: m
    else if a = c.1 then (a, b) :: m
    else c :: Mem.write m a b

/-- Memory with bytes written at consecutive addresses modulo 2^64 (R23). -/
def Mem.writeBytes : Mem → Word → List Byte → Mem
  | m, _, [] => m
  | m, a, b :: bs => Mem.writeBytes (Mem.write m a.toNat b) (add64 a 1) bs

/-- The predicate `MemFault(addr, kind)` of R40, from the platform's ranges. -/
def memFaultAt (c : Platform) (a : Word) (k : AccessKind) : Bool :=
  c.memFault.any (fun r => decide (r.lo ≤ a.toNat) && decide (a.toNat ≤ r.hi) && r.kind == k)

/-- One byte read: the hook first (R27, R40), then the byte's value. -/
def State.byteAt (s : State) (k : AccessKind) (a : Word) : Except Fault Byte :=
  if memFaultAt s.platform a k then .error (.memFault s.pc a k)
  else match s.mem.read a.toNat with
    | some b => .ok b
    | none => .error (.noValue s.pc a k)

/-- The bytes at a list of addresses; the first that cannot be read is the one reported (R156). -/
def State.bytesAt (s : State) (k : AccessKind) : List Word → Except Fault (List Byte)
  | [] => .ok []
  | a :: as =>
    match s.byteAt k a with
    | .error e => .error e
    | .ok b =>
      match s.bytesAt k as with
      | .error e => .error e
      | .ok bs => .ok (b :: bs)

/-- The address of byte `i` of a value read at `a`, under PTR_WRAP (R28): without wrap it is `a + i`. -/
def pointerByte (w : PtrWrap) (a : Word) (i : Nat) : Word :=
  match w with
  | .none => add64 a (BitVec.ofNat 64 i)
  | .page => (a.extractLsb' 8 56) ++ (a.extractLsb' 0 8 + BitVec.ofNat 8 i)
  | .bank => (a.extractLsb' 16 48) ++ (a.extractLsb' 0 16 + BitVec.ofNat 16 i)

/-- The wrap that applies to a kind of access: PTR_WRAP is about addresses read from memory (R4). -/
def wrapOf : AccessKind → PtrWrap
  | .fetch => .none
  | .addressRead => params.ptrWrap

/-- The addresses of an `n`-byte access at `a`. -/
def accessAddresses (k : AccessKind) (a : Word) (n : Nat) : List Word :=
  (List.range n).map (pointerByte (wrapOf k) a)

/-- `MemRead(a, n)` (R27): the `n`-byte unsigned value at `a`, zero-extended to 64 bits. -/
def State.memRead (s : State) (k : AccessKind) (a : Word) (n : Nat) : Except Fault Word :=
  match s.bytesAt k (accessAddresses k a n) with
  | .error e => .error e
  | .ok bs => .ok (BitVec.ofNat 64 (assemble params.byteOrder bs))

/-- `MemWrite(a, n, v)`, which R6 names and no addressing mode calls (R33). The spec does not say what it does: that it
writes the low `n` bytes of `v` little-endian at consecutive addresses modulo 2^64, as MemRead reads them, and never
raises MemFault is the model's. DESIGN CHOICE, unsafe, assumption 37. -/
def State.memWrite (s : State) (a : Word) (n : Nat) (v : Word) : State :=
  { s with mem := s.mem.writeBytes a (bytesOf params.byteOrder n v.toNat) }

/-- The address of the opcode of an instruction that starts at `start`. -/
def opcodeAddress (h : Head) (start : Word) : Word := add64 start (BitVec.ofNat 64 h.f.len)

/-- `DI.pa`, the address of the first parameter byte: the parameter follows the one-byte opcode (R41). -/
def paramAddress (h : Head) (start : Word) : Word := add64 (opcodeAddress h start) 1

/-- `DI.next = add64(DI.pa, n)` (R49). -/
def nextAddress (h : Head) (start : Word) : Word :=
  add64 (paramAddress h start) (BitVec.ofNat 64 (paramLen h.mode))

/-- The decoded record of R7. -/
def diOf (h : Head) (start : Word) : DI :=
  { op := h.op, base := (modeRow h.mode).base, q := (modeRow h.mode).q, am := h.f.am, off := h.f.off, rs := h.f.rs,
    start := start, pa := paramAddress h start, next := nextAddress h start }

/-- `PCv = PCREL_BASE(DI)` (R98): the candidate the launch state names, else the free value. The free value is taken
with RS erased, since no effective address depends on RS (R2). Assumption 9. -/
def pcValue (h : Head) (s : State) : Word :=
  match s.platform.pcrelBase with
  | .start => s.pc
  | .opcode => opcodeAddress h s.pc
  | .param => paramAddress h s.pc
  | .next => nextAddress h s.pc
  | .unstated => Config.pcrelBase { diOf h s.pc with rs := .rs00 }

/-- `RelBase = BRANCH_BASE(DI)` (R142): the candidate the launch state names, else the free value. Assumption 10. -/
def relBase (h : Head) (s : State) : Word :=
  match s.platform.branchBase with
  | .start => s.pc
  | .opcode => opcodeAddress h s.pc
  | .param => paramAddress h s.pc
  | .next => nextAddress h s.pc
  | .unstated => Config.branchBase (diOf h s.pc)

/-- The state after an instruction whose mode gave `r`: the result is handed to the operation and PC moves. No other
register and no byte of memory changes (R18, R33). -/
def State.deliver (s : State) (h : Head) (r : ModeResult) : State :=
  { s with
    pc := pcAfter h.op (nextAddress h s.pc) r s.free
    delivered := s.delivered ++ [{ op := h.op, rs := h.f.rs, result := r }]
    free := s.free + 1 }

/-- `raise` (R6, R153): the mode yields no result, nothing is changed, and the run ends as a fault. The spec describes
no entry, no saved state and no handler (R157). -/
def raiseFault (e : Fault) : Result := .fault e

/-- The end of an instruction whose mode may have raised. -/
def complete (s : State) (h : Head) (r : Except Fault ModeResult) : Result :=
  match r with
  | .ok v => .next (s.deliver h v)
  | .error e => raiseFault e

end Sys2Proof.Machine
end

