-- ==== Sys2Proof/Machine/Operands.lean ====
section
/-!
DEFINITION. The operand forms: the offset register, the index, and the four shapes of address (direct, indirect,
the Address family, relative), then the five ways an instruction runs.
-/

namespace Sys2Proof.Machine

/-- Which index register a mode adds. In an indirect mode X is added to the location before the address is read, Y to
the address read (R55, R123). -/
inductive Index where
  | none | x | y
  deriving DecidableEq, Repr

/-- `IdxVal(r)` (R17): the whole register. -/
def idxVal (r : Word) : Word := zext64 r

/-- `Off(OF)` (R90): nothing, PCv, SR or BR. -/
def offsetValue (h : Head) (s : State) : Word :=
  match h.f.off with
  | .none => 0
  | .pc => pcValue h s
  | .sr => s.sr
  | .br => s.br

/-- A sum of parameter and register under ZP_WRAP (R110): without wrap the 64-bit sum. `n` is the parameter length. -/
def registerSum (n : Nat) (a b : Word) : Word :=
  match params.zpWrap with
  | .none => add64 a b
  | .paramWidth => BitVec.ofNat 64 ((add64 a b).toNat % 2 ^ (8 * n))

/-- `b = add64(zext_64(param(n)), Off(OF))` (R90, R95). -/
def offsetBase (h : Head) (p : Word) (s : State) : Word := registerSum (paramLen h.mode) p (offsetValue h s)

/-- The effective address of a direct mode (R110): `b`, `b + X` or `b + Y`. -/
def directAddress (h : Head) (p : Word) (ix : Index) (s : State) : Word :=
  match ix with
  | .none => offsetBase h p s
  | .x => registerSum (paramLen h.mode) (offsetBase h p s) (idxVal s.xr)
  | .y => registerSum (paramLen h.mode) (offsetBase h p s) (idxVal s.yr)

/-- The location an indirect mode reads its address from (R123): `b`, or `b + X` for the pre-indexed shape. -/
def pointerLocation (h : Head) (p : Word) (ix : Index) (s : State) : Word :=
  match ix with
  | .x => registerSum (paramLen h.mode) (offsetBase h p s) (idxVal s.xr)
  | _ => offsetBase h p s

/-- The effective address an indirect mode forms from the address `v` it read (R123): `v`, or `v + Y` for the
post-indexed shape. -/
def indirectAddress (v : Word) (ix : Index) (s : State) : Word :=
  match ix with
  | .y => add64 v (idxVal s.yr)
  | _ => v

/-- The target of a relative mode (R142): `add64(RelBase, sext_64(param(n)))`, the offset already sign-extended. -/
def relativeTarget (h : Head) (offset : Word) (s : State) : Word := add64 (relBase h s) offset

/-- A direct mode (R110). -/
def runDirect (h : Head) (p : Word) (ix : Index) (s : State) : Result :=
  complete s h (.ok (.ea (directAddress h p ix s)))

/-- The result of an indirect mode that reads a `w`-byte address (R123); the read may raise. -/
def indirectResult (h : Head) (p : Word) (w : Nat) (ix : Index) (s : State) : Except Fault ModeResult :=
  match s.memRead .addressRead (pointerLocation h p ix s) w with
  | .error e => .error e
  | .ok v => .ok (.ea (indirectAddress v ix s))

/-- An indirect mode (R123). -/
def runIndirect (h : Head) (p : Word) (w : Nat) (ix : Index) (s : State) : Result :=
  complete s h (indirectResult h p w ix s)

/-- The Address family (R102 to R104): the parameter plus the offset register is the destination itself. -/
def runAddress (h : Head) (p : Word) (s : State) : Result := complete s h (.ok (.target (offsetBase h p s)))

/-- An immediate (R105 to R108): the parameter is the operand. -/
def runImmediate (h : Head) (v : Nat) (s : State) : Result := complete s h (.ok (.imm v (paramLen h.mode)))

/-- A relative mode (R142). -/
def runRelative (h : Head) (offset : Word) (s : State) : Result :=
  complete s h (.ok (.target (relativeTarget h offset s)))

end Sys2Proof.Machine
end

