-- ==== Sys2Proof/Machine/Direct.lean ====
section
/-!
DEFINITION. M11 to M22: the direct Zeropage and Absolute modes (43_direct.md).
-/

namespace Sys2Proof.Machine

/-- M11, `zp` (R111). -/
def execZeropage (op : OpClass) (f : Pfx) (p : BitVec 8) (s : State) : Result :=
  runDirect ⟨.zeropage, op, f⟩ (zext64 p) .none s

/-- M12, `zp,X` (R112). -/
def execZeropageX (op : OpClass) (f : Pfx) (p : BitVec 8) (s : State) : Result :=
  runDirect ⟨.zeropageX, op, f⟩ (zext64 p) .x s

/-- M13, `zp,Y` (R113). -/
def execZeropageY (op : OpClass) (f : Pfx) (p : BitVec 8) (s : State) : Result :=
  runDirect ⟨.zeropageY, op, f⟩ (zext64 p) .y s

/-- M14, `abs` (R114). -/
def execAbsolute16 (op : OpClass) (f : Pfx) (p : BitVec 16) (s : State) : Result :=
  runDirect ⟨.absolute16, op, f⟩ (zext64 p) .none s

/-- M15, `abs,X` (R115). -/
def execAbsolute16X (op : OpClass) (f : Pfx) (p : BitVec 16) (s : State) : Result :=
  runDirect ⟨.absolute16X, op, f⟩ (zext64 p) .x s

/-- M16, `abs,Y` (R116). -/
def execAbsolute16Y (op : OpClass) (f : Pfx) (p : BitVec 16) (s : State) : Result :=
  runDirect ⟨.absolute16Y, op, f⟩ (zext64 p) .y s

/-- M17, `long` (R117). -/
def execAbsolute32 (op : OpClass) (f : Pfx) (p : BitVec 32) (s : State) : Result :=
  runDirect ⟨.absolute32, op, f⟩ (zext64 p) .none s

/-- M18, `long,X` (R118). -/
def execAbsolute32X (op : OpClass) (f : Pfx) (p : BitVec 32) (s : State) : Result :=
  runDirect ⟨.absolute32X, op, f⟩ (zext64 p) .x s

/-- M19, `long,Y` (R119). -/
def execAbsolute32Y (op : OpClass) (f : Pfx) (p : BitVec 32) (s : State) : Result :=
  runDirect ⟨.absolute32Y, op, f⟩ (zext64 p) .y s

/-- M20, `quad` (R120). -/
def execAbsolute64 (op : OpClass) (f : Pfx) (p : BitVec 64) (s : State) : Result :=
  runDirect ⟨.absolute64, op, f⟩ (zext64 p) .none s

/-- M21, `quad,X` (R121). -/
def execAbsolute64X (op : OpClass) (f : Pfx) (p : BitVec 64) (s : State) : Result :=
  runDirect ⟨.absolute64X, op, f⟩ (zext64 p) .x s

/-- M22, `quad,Y` (R122). -/
def execAbsolute64Y (op : OpClass) (f : Pfx) (p : BitVec 64) (s : State) : Result :=
  runDirect ⟨.absolute64Y, op, f⟩ (zext64 p) .y s

end Sys2Proof.Machine
end

