-- ==== Sys2Proof/Machine/IndirectLong.lean ====
section
/-!
DEFINITION. M29 to M34: the indirect modes that read a 32-bit address (45_indirect_long.md).
-/

namespace Sys2Proof.Machine

/-- M29, `[zp]` (R130). -/
def execZeropageIndirect32 (op : OpClass) (f : Pfx) (p : BitVec 8) (s : State) : Result :=
  runIndirect ⟨.zeropageIndirect32, op, f⟩ (zext64 p) 4 .none s

/-- M30, `[zp],Y` (R131). -/
def execZeropageIndirect32Y (op : OpClass) (f : Pfx) (p : BitVec 8) (s : State) : Result :=
  runIndirect ⟨.zeropageIndirect32Y, op, f⟩ (zext64 p) 4 .y s

/-- M31, `[zp,X]` (R132). -/
def execZeropageXIndirect32 (op : OpClass) (f : Pfx) (p : BitVec 8) (s : State) : Result :=
  runIndirect ⟨.zeropageXIndirect32, op, f⟩ (zext64 p) 4 .x s

/-- M32, `[abs]` (R133). -/
def execAbsoluteIndirect32 (op : OpClass) (f : Pfx) (p : BitVec 16) (s : State) : Result :=
  runIndirect ⟨.absoluteIndirect32, op, f⟩ (zext64 p) 4 .none s

/-- M33, `[abs],Y` (R134). -/
def execAbsoluteIndirect32Y (op : OpClass) (f : Pfx) (p : BitVec 16) (s : State) : Result :=
  runIndirect ⟨.absoluteIndirect32Y, op, f⟩ (zext64 p) 4 .y s

/-- M34, `[abs,X]` (R135). -/
def execAbsoluteXIndirect32 (op : OpClass) (f : Pfx) (p : BitVec 16) (s : State) : Result :=
  runIndirect ⟨.absoluteXIndirect32, op, f⟩ (zext64 p) 4 .x s

end Sys2Proof.Machine
end

