-- ==== Sys2Proof/Machine/IndirectQuad.lean ====
section
/-!
DEFINITION. M35 to M40: the indirect modes that read a 64-bit address (46_indirect_quad.md).
-/

namespace Sys2Proof.Machine

/-- M35, `[[zp]]` (R136). -/
def execZeropageIndirect64 (op : OpClass) (f : Pfx) (p : BitVec 8) (s : State) : Result :=
  runIndirect ⟨.zeropageIndirect64, op, f⟩ (zext64 p) 8 .none s

/-- M36, `[[zp]],Y` (R137). -/
def execZeropageIndirect64Y (op : OpClass) (f : Pfx) (p : BitVec 8) (s : State) : Result :=
  runIndirect ⟨.zeropageIndirect64Y, op, f⟩ (zext64 p) 8 .y s

/-- M37, `[[zp,X]]` (R138). -/
def execZeropageXIndirect64 (op : OpClass) (f : Pfx) (p : BitVec 8) (s : State) : Result :=
  runIndirect ⟨.zeropageXIndirect64, op, f⟩ (zext64 p) 8 .x s

/-- M38, `[[abs]]` (R139). -/
def execAbsoluteIndirect64 (op : OpClass) (f : Pfx) (p : BitVec 16) (s : State) : Result :=
  runIndirect ⟨.absoluteIndirect64, op, f⟩ (zext64 p) 8 .none s

/-- M39, `[[abs]],Y` (R140). -/
def execAbsoluteIndirect64Y (op : OpClass) (f : Pfx) (p : BitVec 16) (s : State) : Result :=
  runIndirect ⟨.absoluteIndirect64Y, op, f⟩ (zext64 p) 8 .y s

/-- M40, `[[abs,X]]` (R141). -/
def execAbsoluteXIndirect64 (op : OpClass) (f : Pfx) (p : BitVec 16) (s : State) : Result :=
  runIndirect ⟨.absoluteXIndirect64, op, f⟩ (zext64 p) 8 .x s

end Sys2Proof.Machine
end

