-- ==== Sys2Proof/Machine/IndirectWord.lean ====
section
/-!
DEFINITION. M23 to M28: the indirect modes that read a 16-bit address (44_indirect_word.md).
-/

namespace Sys2Proof.Machine

/-- M23, `(zp)` (R124). -/
def execZeropageIndirect16 (op : OpClass) (f : Pfx) (p : BitVec 8) (s : State) : Result :=
  runIndirect ⟨.zeropageIndirect16, op, f⟩ (zext64 p) 2 .none s

/-- M24, `(zp),Y` (R125). -/
def execZeropageIndirect16Y (op : OpClass) (f : Pfx) (p : BitVec 8) (s : State) : Result :=
  runIndirect ⟨.zeropageIndirect16Y, op, f⟩ (zext64 p) 2 .y s

/-- M25, `(zp,X)` (R126). -/
def execZeropageXIndirect16 (op : OpClass) (f : Pfx) (p : BitVec 8) (s : State) : Result :=
  runIndirect ⟨.zeropageXIndirect16, op, f⟩ (zext64 p) 2 .x s

/-- M26, `(abs)` (R127). -/
def execAbsoluteIndirect16 (op : OpClass) (f : Pfx) (p : BitVec 16) (s : State) : Result :=
  runIndirect ⟨.absoluteIndirect16, op, f⟩ (zext64 p) 2 .none s

/-- M27, `(abs),Y` (R128). -/
def execAbsoluteIndirect16Y (op : OpClass) (f : Pfx) (p : BitVec 16) (s : State) : Result :=
  runIndirect ⟨.absoluteIndirect16Y, op, f⟩ (zext64 p) 2 .y s

/-- M28, `(abs,X)` (R129). -/
def execAbsoluteXIndirect16 (op : OpClass) (f : Pfx) (p : BitVec 16) (s : State) : Result :=
  runIndirect ⟨.absoluteXIndirect16, op, f⟩ (zext64 p) 2 .x s

end Sys2Proof.Machine
end

