-- ==== Sys2Proof/Machine/NoAddress.lean ====
section
/-!
DEFINITION. M1 to M10: Implied, Accumulator, the Address family, the immediates, E indirect (42_noaddr_address_immediate.md).
-/

namespace Sys2Proof.Machine

/-- M1, `- (none)` (R100). -/
def execImplied (op : OpClass) (f : Pfx) (s : State) : Result :=
  complete s ⟨.implied, op, f⟩ (.ok .none)

/-- M2, Accumulator (R101). The mode hands over `Acc`; the operation then writes the accumulator, and what it writes is
not in the source: a free value, assumption 16. -/
def execAccumulator (op : OpClass) (f : Pfx) (s : State) : Result :=
  complete { s with acc := Config.accumulatorResult s.free } ⟨.accumulator, op, f⟩ (.ok .acc)

/-- M3, `abs` (R102). -/
def execAddress (op : OpClass) (f : Pfx) (p : BitVec 16) (s : State) : Result :=
  runAddress ⟨.address, op, f⟩ (zext64 p) s

/-- M4, `long` (R103). -/
def execAddressLong (op : OpClass) (f : Pfx) (p : BitVec 32) (s : State) : Result :=
  runAddress ⟨.addressLong, op, f⟩ (zext64 p) s

/-- M5, `quad` (R104). -/
def execAddressQuad (op : OpClass) (f : Pfx) (p : BitVec 64) (s : State) : Result :=
  runAddress ⟨.addressQuad, op, f⟩ (zext64 p) s

/-- M6, `#byte` (R105). -/
def execImmediate (op : OpClass) (f : Pfx) (p : BitVec 8) (s : State) : Result :=
  runImmediate ⟨.immediate, op, f⟩ p.toNat s

/-- M7, `#word` (R106). -/
def execImmediate16 (op : OpClass) (f : Pfx) (p : BitVec 16) (s : State) : Result :=
  runImmediate ⟨.immediate16, op, f⟩ p.toNat s

/-- M8, `#long` (R107). -/
def execImmediate32 (op : OpClass) (f : Pfx) (p : BitVec 32) (s : State) : Result :=
  runImmediate ⟨.immediate32, op, f⟩ p.toNat s

/-- M9, `#quad` (R108). -/
def execImmediate64 (op : OpClass) (f : Pfx) (p : BitVec 64) (s : State) : Result :=
  runImmediate ⟨.immediate64, op, f⟩ p.toNat s

/-- M10, `(E)` (R109). -/
def execEIndirect (op : OpClass) (f : Pfx) (s : State) : Result :=
  complete s ⟨.eIndirect, op, f⟩ (.ok (.ea (zext64 s.e)))

end Sys2Proof.Machine
end

