-- ==== Sys2Proof/Machine/Relative.lean ====
section
/-!
DEFINITION. M41 to M48: the relative modes of branches and of BSR (47_relative.md).
-/

namespace Sys2Proof.Machine

/-- M41, `rel` (R143). -/
def execRelative (op : OpClass) (f : Pfx) (p : BitVec 8) (s : State) : Result :=
  runRelative ⟨.relative, op, f⟩ (sext64 p) s

/-- M42, `relwide` (R144). -/
def execRelative16 (op : OpClass) (f : Pfx) (p : BitVec 16) (s : State) : Result :=
  runRelative ⟨.relative16, op, f⟩ (sext64 p) s

/-- M43, `rellong` (R145). -/
def execRelative32 (op : OpClass) (f : Pfx) (p : BitVec 32) (s : State) : Result :=
  runRelative ⟨.relative32, op, f⟩ (sext64 p) s

/-- M44, `relquad` (R146). -/
def execRelative64 (op : OpClass) (f : Pfx) (p : BitVec 64) (s : State) : Result :=
  runRelative ⟨.relative64, op, f⟩ (sext64 p) s

/-- M45, `rel` (R147). -/
def execRelativeBsr (op : OpClass) (f : Pfx) (p : BitVec 8) (s : State) : Result :=
  runRelative ⟨.relativeBsr, op, f⟩ (sext64 p) s

/-- M46, `relwide` (R148). -/
def execRelative16Bsr (op : OpClass) (f : Pfx) (p : BitVec 16) (s : State) : Result :=
  runRelative ⟨.relative16Bsr, op, f⟩ (sext64 p) s

/-- M47, `rellong` (R149). -/
def execRelative32Bsr (op : OpClass) (f : Pfx) (p : BitVec 32) (s : State) : Result :=
  runRelative ⟨.relative32Bsr, op, f⟩ (sext64 p) s

/-- M48, `relquad` (R150). -/
def execRelative64Bsr (op : OpClass) (f : Pfx) (p : BitVec 64) (s : State) : Result :=
  runRelative ⟨.relative64Bsr, op, f⟩ (sext64 p) s

end Sys2Proof.Machine
end

