-- ==== Sys2Proof/Machine/Dispatch.lean ====
section
/-!
DEFINITION. One arm per constructor of Instr, each a direct call of its meaning.
-/

namespace Sys2Proof.Machine

def exec (i : Instr) (s : State) : Host.Outcome State Fault Refusal :=
  match i with
  | .implied op f => Sys2Proof.Machine.execImplied op f s
  | .accumulator op f => Sys2Proof.Machine.execAccumulator op f s
  | .address op f p => Sys2Proof.Machine.execAddress op f p s
  | .addressLong op f p => Sys2Proof.Machine.execAddressLong op f p s
  | .addressQuad op f p => Sys2Proof.Machine.execAddressQuad op f p s
  | .immediate op f p => Sys2Proof.Machine.execImmediate op f p s
  | .immediate16 op f p => Sys2Proof.Machine.execImmediate16 op f p s
  | .immediate32 op f p => Sys2Proof.Machine.execImmediate32 op f p s
  | .immediate64 op f p => Sys2Proof.Machine.execImmediate64 op f p s
  | .eIndirect op f => Sys2Proof.Machine.execEIndirect op f s
  | .zeropage op f p => Sys2Proof.Machine.execZeropage op f p s
  | .zeropageX op f p => Sys2Proof.Machine.execZeropageX op f p s
  | .zeropageY op f p => Sys2Proof.Machine.execZeropageY op f p s
  | .absolute16 op f p => Sys2Proof.Machine.execAbsolute16 op f p s
  | .absolute16X op f p => Sys2Proof.Machine.execAbsolute16X op f p s
  | .absolute16Y op f p => Sys2Proof.Machine.execAbsolute16Y op f p s
  | .absolute32 op f p => Sys2Proof.Machine.execAbsolute32 op f p s
  | .absolute32X op f p => Sys2Proof.Machine.execAbsolute32X op f p s
  | .absolute32Y op f p => Sys2Proof.Machine.execAbsolute32Y op f p s
  | .absolute64 op f p => Sys2Proof.Machine.execAbsolute64 op f p s
  | .absolute64X op f p => Sys2Proof.Machine.execAbsolute64X op f p s
  | .absolute64Y op f p => Sys2Proof.Machine.execAbsolute64Y op f p s
  | .zeropageIndirect16 op f p => Sys2Proof.Machine.execZeropageIndirect16 op f p s
  | .zeropageIndirect16Y op f p => Sys2Proof.Machine.execZeropageIndirect16Y op f p s
  | .zeropageXIndirect16 op f p => Sys2Proof.Machine.execZeropageXIndirect16 op f p s
  | .absoluteIndirect16 op f p => Sys2Proof.Machine.execAbsoluteIndirect16 op f p s
  | .absoluteIndirect16Y op f p => Sys2Proof.Machine.execAbsoluteIndirect16Y op f p s
  | .absoluteXIndirect16 op f p => Sys2Proof.Machine.execAbsoluteXIndirect16 op f p s
  | .zeropageIndirect32 op f p => Sys2Proof.Machine.execZeropageIndirect32 op f p s
  | .zeropageIndirect32Y op f p => Sys2Proof.Machine.execZeropageIndirect32Y op f p s
  | .zeropageXIndirect32 op f p => Sys2Proof.Machine.execZeropageXIndirect32 op f p s
  | .absoluteIndirect32 op f p => Sys2Proof.Machine.execAbsoluteIndirect32 op f p s
  | .absoluteIndirect32Y op f p => Sys2Proof.Machine.execAbsoluteIndirect32Y op f p s
  | .absoluteXIndirect32 op f p => Sys2Proof.Machine.execAbsoluteXIndirect32 op f p s
  | .zeropageIndirect64 op f p => Sys2Proof.Machine.execZeropageIndirect64 op f p s
  | .zeropageIndirect64Y op f p => Sys2Proof.Machine.execZeropageIndirect64Y op f p s
  | .zeropageXIndirect64 op f p => Sys2Proof.Machine.execZeropageXIndirect64 op f p s
  | .absoluteIndirect64 op f p => Sys2Proof.Machine.execAbsoluteIndirect64 op f p s
  | .absoluteIndirect64Y op f p => Sys2Proof.Machine.execAbsoluteIndirect64Y op f p s
  | .absoluteXIndirect64 op f p => Sys2Proof.Machine.execAbsoluteXIndirect64 op f p s
  | .relative op f p => Sys2Proof.Machine.execRelative op f p s
  | .relative16 op f p => Sys2Proof.Machine.execRelative16 op f p s
  | .relative32 op f p => Sys2Proof.Machine.execRelative32 op f p s
  | .relative64 op f p => Sys2Proof.Machine.execRelative64 op f p s
  | .relativeBsr op f p => Sys2Proof.Machine.execRelativeBsr op f p s
  | .relative16Bsr op f p => Sys2Proof.Machine.execRelative16Bsr op f p s
  | .relative32Bsr op f p => Sys2Proof.Machine.execRelative32Bsr op f p s
  | .relative64Bsr op f p => Sys2Proof.Machine.execRelative64Bsr op f p s

end Sys2Proof.Machine
end

