-- ==== Sys2Proof/Machine/Fetch.lean ====
section
/-!
DEFINITION. Fetching an instruction's bytes and decoding them: the bytes from PC on that can be read, in rising order
(R36), up to the longest instruction the platform's maps allow; and placing an instruction's bytes.
-/

namespace Sys2Proof.Machine

/-- The most bytes an instruction can take: the longest prefix entry, the opcode, 8 parameter bytes (R52). -/
def Platform.longest (c : Sys2Proof.Platform) : Nat := (c.pfx.map (fun e => e.bytes.length)).foldr max 0 + 9

/-- The bytes from `a` on, as far as they can be fetched, at most `n` of them. -/
def State.fetchBytes (s : State) : Nat → Word → List Byte
  | 0, _ => []
  | n + 1, a =>
    match s.byteAt .fetch a with
    | .ok b => b :: s.fetchBytes n (add64 a 1)
    | .error _ => []

/-- The bytes at PC the decoder is given. -/
def State.fetchWindow (s : State) : List Byte := s.fetchBytes (Platform.longest s.platform) s.pc

/-- Where fetching stopped: the first byte from PC on that could not be read. -/
def State.fetchEnd (s : State) : Word := add64 s.pc (BitVec.ofNat 64 s.fetchWindow.length)

/-- How fetching and decoding ends without an instruction: where the bytes were too few, with the fault of the first
byte that could not be read (R153, R156), otherwise with the decoder's reason (R9). -/
def State.fetchFailure (s : State) (r : Reject) : Result :=
  match r with
  | .truncated =>
    match s.byteAt .fetch s.fetchEnd with
    | .error e => raiseFault e
    | .ok _ => .refused (.undecodable s.pc .truncated)
  | _ => .refused (.undecodable s.pc r)

/-- A state with an instruction's bytes placed at PC. -/
def State.placeBytes (s : State) (bs : List Byte) : State := { s with mem := s.mem.writeBytes s.pc bs }

end Sys2Proof.Machine
end

