-- ==== Sys2Proof/Machine/Step.lean ====
section
/-!
DEFINITION. One step: fetch and decode the instruction at PC, then run it. Also the placing of a word of the opcode
table where the next step fetches it.
-/

namespace Sys2Proof.Machine

/-- One step of the machine: the instruction at PC is run (R36), or fetching it faults, or its bytes are refused. -/
def step (s : State) : Host.Outcome State Fault Refusal :=
  match decode s.platform s.fetchWindow with
  | .ok (i, _) => exec i s
  | .error r => s.fetchFailure r

/-- A launch state (R164, R165) for a word of spec/opcode_table.json: its bytes stand at PC, and OPC and PFX are those
of instance I-6502, the maps `decodeTableWord` uses. Assumption 12. -/
def State.withFetchWord (s : State) (nbits w : Nat) : State :=
  { s.placeBytes (tableBytes nbits w) with
    platform := { s.platform with opc := Platform.i6502.opc, pfx := Platform.i6502.pfx } }

end Sys2Proof.Machine
end

