-- ==== Sys2Proof/Machine/Assembler.lean ====
section
/-!
DEFINITION. The assembler's operand forms (R55) with the offset prefix in its place (R56), as lists of tokens.
-/

namespace Sys2Proof.Machine

/-- The pieces an operand is written with. `zp`, `abs`, `long`, `quad` are an address or a value of 8, 16, 32, 64 bits
after `#`; `rel` ... `relquad` a branch destination; `pPre`, `sPre`, `bPre` the address prefixes `P,` `S,` `B,`. -/
inductive Tok where
  | zp | abs | long | quad
  | byte | word
  | rel | relwide | rellong | relquad
  | hash | open_ | close | openSq | closeSq | commaX | commaY | regE
  | pPre | sPre | bPre
  deriving DecidableEq, Repr

/-- The address prefix of an OF value (R56). -/
def offsetToks : Offset → List Tok
  | .none => []
  | .pc => [.pPre]
  | .sr => [.sPre]
  | .br => [.bPre]

/-- The operand form of a mode (R55). The prefix `o` stands directly before the address. -/
def operandForm (m : Mode) (off : Offset) : List Tok :=
  let o := offsetToks off
  match m with
  | .implied => []
  | .accumulator => []
  | .address | .absolute16 => o ++ [.abs]
  | .addressLong | .absolute32 => o ++ [.long]
  | .addressQuad | .absolute64 => o ++ [.quad]
  | .immediate => [.hash, .byte]
  | .immediate16 => [.hash, .word]
  | .immediate32 => [.hash, .long]
  | .immediate64 => [.hash, .quad]
  | .eIndirect => [.open_, .regE, .close]
  | .zeropage => o ++ [.zp]
  | .zeropageX => o ++ [.zp, .commaX]
  | .zeropageY => o ++ [.zp, .commaY]
  | .absolute16X => o ++ [.abs, .commaX]
  | .absolute16Y => o ++ [.abs, .commaY]
  | .absolute32X => o ++ [.long, .commaX]
  | .absolute32Y => o ++ [.long, .commaY]
  | .absolute64X => o ++ [.quad, .commaX]
  | .absolute64Y => o ++ [.quad, .commaY]
  | .zeropageIndirect16 => [.open_] ++ o ++ [.zp, .close]
  | .zeropageIndirect16Y => [.open_] ++ o ++ [.zp, .close, .commaY]
  | .zeropageXIndirect16 => [.open_] ++ o ++ [.zp, .commaX, .close]
  | .absoluteIndirect16 => [.open_] ++ o ++ [.abs, .close]
  | .absoluteIndirect16Y => [.open_] ++ o ++ [.abs, .close, .commaY]
  | .absoluteXIndirect16 => [.open_] ++ o ++ [.abs, .commaX, .close]
  | .zeropageIndirect32 => [.openSq] ++ o ++ [.zp, .closeSq]
  | .zeropageIndirect32Y => [.openSq] ++ o ++ [.zp, .closeSq, .commaY]
  | .zeropageXIndirect32 => [.openSq] ++ o ++ [.zp, .commaX, .closeSq]
  | .absoluteIndirect32 => [.openSq] ++ o ++ [.abs, .closeSq]
  | .absoluteIndirect32Y => [.openSq] ++ o ++ [.abs, .closeSq, .commaY]
  | .absoluteXIndirect32 => [.openSq] ++ o ++ [.abs, .commaX, .closeSq]
  | .zeropageIndirect64 => [.openSq, .openSq] ++ o ++ [.zp, .closeSq, .closeSq]
  | .zeropageIndirect64Y => [.openSq, .openSq] ++ o ++ [.zp, .closeSq, .closeSq, .commaY]
  | .zeropageXIndirect64 => [.openSq, .openSq] ++ o ++ [.zp, .commaX, .closeSq, .closeSq]
  | .absoluteIndirect64 => [.openSq, .openSq] ++ o ++ [.abs, .closeSq, .closeSq]
  | .absoluteIndirect64Y => [.openSq, .openSq] ++ o ++ [.abs, .closeSq, .closeSq, .commaY]
  | .absoluteXIndirect64 => [.openSq, .openSq] ++ o ++ [.abs, .commaX, .closeSq, .closeSq]
  | .relative | .relativeBsr => [.rel]
  | .relative16 | .relative16Bsr => [.relwide]
  | .relative32 | .relative32Bsr => [.rellong]
  | .relative64 | .relative64Bsr => [.relquad]

end Sys2Proof.Machine
end

