-- ==== Sys2Proof/Safety.lean ====
section
/-!
DEFINITION. The terms claims are stated in: the state an instruction leaves, the address after an instruction, what
may be delivered to an operation, and the invariant of a run.
-/

namespace Sys2Proof.Machine

/-- The address after an instruction with prefix fields `f` and an `n`-byte parameter: prefix length + 1 + `n` bytes
on (R52). -/
def State.past (s : State) (f : Pfx) (n : Nat) : Word := s.pc + BitVec.ofNat 64 (f.len + 1 + n)

/-- The state in which result `r` has been handed to an operation of class `op` with field `rs`, PC is `pc`, and
nothing else has changed. -/
def State.handed (s : State) (pc : Word) (op : OpClass) (rs : RS) (r : ModeResult) : State :=
  { s with pc := pc, delivered := s.delivered ++ [{ op := op, rs := rs, result := r }], free := s.free + 1 }

/-- The same change made to the next state; a fault or a refusal is left as it is. -/
def mapNext (g : State → State) : Result → Result
  | .next s => .next (g s)
  | .fault e => .fault e
  | .refused r => .refused r

/-- The parameter length an immediate has under RS (R45, R105 to R108). -/
def immediateLength : RS → Nat
  | .rs00 => 1
  | .rs01 => 2
  | .rs10 => 4
  | .rs11 => 8

/-- What a mode may hand to an operation: an immediate of the width RS says, that fits it, to a data operation (R45);
an effective address to a data or jump operation; a target to a jump, a branch, or BSR, to BSR with RS = 00 (R61). -/
def Delivery.admissible (d : Delivery) : Bool :=
  match d.result with
  | .none => true
  | .acc => true
  | .imm v n => d.op == .data && n == immediateLength d.rs && decide (v < 2 ^ (8 * n))
  | .ea _ => d.op == .data || d.op == .jump
  | .target _ => d.op == .jump || d.op == .branch || (d.op == .bsr && d.rs == .rs00)

/-- The invariant of a run: memory is in its canonical form and only admissible results have been delivered. -/
def State.Inv (s : State) : Prop := s.mem.wf ∧ ∀ d ∈ s.delivered, d.admissible = true

end Sys2Proof.Machine
end

