-- ==== Sys2Proof/Certificates/Slice0/Obligations.lean ====
section
/-!
DEFINITION. The statements for the provers. A prefix field record is `f`, a parameter `p`; `s.past f n` is the address
after an instruction with an `n`-byte parameter (R52) and `s.handed pc op rs r` the state in which result `r` has been
handed over, PC is `pc` and nothing else has changed.
-/

open Sys2Proof Sys2Proof.Machine

/-! ### What each mode gives -/

/-- R100: an Implied instruction hands over None. A data operation leaves PC after the instruction; whether another
operation transfers control, and where to, is a free value (assumption 15). -/
def Obligations.ImpliedCompletes : Prop :=
  ∀ (op : OpClass) (f : Pfx) (s : State),
    exec (.implied op f) s = .next (s.handed
      (if op = OpClass.data then s.past f 0
       else if Config.transfers s.free then Config.transferTarget s.free else s.past f 0) op f.rs .none)

/-- R101: an Accumulator instruction hands over Acc, and its operation writes the accumulator (a free value,
assumption 16). PC as for Implied (assumption 15). -/
def Obligations.AccumulatorCompletes : Prop :=
  ∀ (op : OpClass) (f : Pfx) (s : State),
    exec (.accumulator op f) s = .next ({ s with acc := Config.accumulatorResult s.free }.handed
      (if op = OpClass.data then s.past f 0
       else if Config.transfers s.free then Config.transferTarget s.free else s.past f 0) op f.rs .acc)

/-- R102, R103, R104: Address, Address Long and Address Quad give as target the zero-extended parameter plus Off(OF).
OF other than 00 on these modes is admitted without an example in the source (U6, assumption 25). That the jump leaves
PC at the target is the model's reading (assumption 13). -/
def Obligations.AddressModesComplete : Prop :=
  ∀ (f : Pfx) (s : State),
    (∀ p : BitVec 16, exec (.address .jump f p) s =
      let a := p.setWidth 64 + offsetValue ⟨.address, .jump, f⟩ s
      .next (s.handed a .jump f.rs (.target a))) ∧
    (∀ p : BitVec 32, exec (.addressLong .jump f p) s =
      let a := p.setWidth 64 + offsetValue ⟨.addressLong, .jump, f⟩ s
      .next (s.handed a .jump f.rs (.target a))) ∧
    (∀ p : BitVec 64, exec (.addressQuad .jump f p) s =
      let a := p + offsetValue ⟨.addressQuad, .jump, f⟩ s
      .next (s.handed a .jump f.rs (.target a)))

/-- R105 to R108: an immediate hands over its parameter, 1, 2, 4 or 8 bytes wide, and PC goes on. -/
def Obligations.ImmediatesComplete : Prop :=
  ∀ (f : Pfx) (s : State),
    (∀ p : BitVec 8, exec (.immediate .data f p) s = .next (s.handed (s.past f 1) .data f.rs (.imm p.toNat 1))) ∧
    (∀ p : BitVec 16, exec (.immediate16 .data f p) s = .next (s.handed (s.past f 2) .data f.rs (.imm p.toNat 2))) ∧
    (∀ p : BitVec 32, exec (.immediate32 .data f p) s = .next (s.handed (s.past f 4) .data f.rs (.imm p.toNat 4))) ∧
    (∀ p : BitVec 64, exec (.immediate64 .data f p) s = .next (s.handed (s.past f 8) .data f.rs (.imm p.toNat 8)))

/-- R109: E indirect gives the value of E as the effective address, and reads no memory; E is not modified. -/
def Obligations.EIndirectCompletes : Prop :=
  ∀ (f : Pfx) (s : State), exec (.eIndirect .data f) s = .next (s.handed (s.past f 0) .data f.rs (.ea s.e))

/-- R111, R114, R117, R120: the direct modes without index. -/
def Obligations.DirectModesComplete : Prop :=
  ∀ (f : Pfx) (s : State),
    (∀ p : BitVec 8, exec (.zeropage .data f p) s = .next (s.handed (s.past f 1) .data f.rs
      (.ea (p.setWidth 64 + offsetValue ⟨.zeropage, .data, f⟩ s)))) ∧
    (∀ p : BitVec 16, exec (.absolute16 .data f p) s = .next (s.handed (s.past f 2) .data f.rs
      (.ea (p.setWidth 64 + offsetValue ⟨.absolute16, .data, f⟩ s)))) ∧
    (∀ p : BitVec 32, exec (.absolute32 .data f p) s = .next (s.handed (s.past f 4) .data f.rs
      (.ea (p.setWidth 64 + offsetValue ⟨.absolute32, .data, f⟩ s)))) ∧
    (∀ p : BitVec 64, exec (.absolute64 .data f p) s = .next (s.handed (s.past f 8) .data f.rs
      (.ea (p + offsetValue ⟨.absolute64, .data, f⟩ s))))

/-- R112, R115, R118, R121: the direct modes indexed with X, a 64-bit sum without an inner wrap (R110). -/
def Obligations.DirectXModesComplete : Prop :=
  ∀ (f : Pfx) (s : State),
    (∀ p : BitVec 8, exec (.zeropageX .data f p) s = .next (s.handed (s.past f 1) .data f.rs
      (.ea (p.setWidth 64 + offsetValue ⟨.zeropageX, .data, f⟩ s + s.xr)))) ∧
    (∀ p : BitVec 16, exec (.absolute16X .data f p) s = .next (s.handed (s.past f 2) .data f.rs
      (.ea (p.setWidth 64 + offsetValue ⟨.absolute16X, .data, f⟩ s + s.xr)))) ∧
    (∀ p : BitVec 32, exec (.absolute32X .data f p) s = .next (s.handed (s.past f 4) .data f.rs
      (.ea (p.setWidth 64 + offsetValue ⟨.absolute32X, .data, f⟩ s + s.xr)))) ∧
    (∀ p : BitVec 64, exec (.absolute64X .data f p) s = .next (s.handed (s.past f 8) .data f.rs
      (.ea (p + offsetValue ⟨.absolute64X, .data, f⟩ s + s.xr))))

/-- R113, R116, R119, R122: the direct modes indexed with Y. -/
def Obligations.DirectYModesComplete : Prop :=
  ∀ (f : Pfx) (s : State),
    (∀ p : BitVec 8, exec (.zeropageY .data f p) s = .next (s.handed (s.past f 1) .data f.rs
      (.ea (p.setWidth 64 + offsetValue ⟨.zeropageY, .data, f⟩ s + s.yr)))) ∧
    (∀ p : BitVec 16, exec (.absolute16Y .data f p) s = .next (s.handed (s.past f 2) .data f.rs
      (.ea (p.setWidth 64 + offsetValue ⟨.absolute16Y, .data, f⟩ s + s.yr)))) ∧
    (∀ p : BitVec 32, exec (.absolute32Y .data f p) s = .next (s.handed (s.past f 4) .data f.rs
      (.ea (p.setWidth 64 + offsetValue ⟨.absolute32Y, .data, f⟩ s + s.yr)))) ∧
    (∀ p : BitVec 64, exec (.absolute64Y .data f p) s = .next (s.handed (s.past f 8) .data f.rs
      (.ea (p + offsetValue ⟨.absolute64Y, .data, f⟩ s + s.yr))))

/-- R124 to R129: the indirect modes that read a 16-bit address. Where the 2 bytes at the location can be read, with value
`v` (Obligations.MemReadValue), the effective address is `v`, plus Y where the mode is post-indexed; X is added to the
location. An operation of class jump uses it as its target (R61, assumption 13). -/
def Obligations.IndirectWordModesComplete : Prop :=
  ∀ (op : OpClass) (f : Pfx) (s : State) (v : Word), op = OpClass.data ∨ op = OpClass.jump →
    (∀ p : BitVec 8, s.memRead .addressRead (p.setWidth 64 + offsetValue ⟨.zeropageIndirect16, op, f⟩ s) 2 = .ok v →
      exec (.zeropageIndirect16 op f p) s = .next (s.handed (if op = OpClass.jump then v else s.past f 1) op f.rs (.ea v))) ∧
    (∀ p : BitVec 8, s.memRead .addressRead (p.setWidth 64 + offsetValue ⟨.zeropageIndirect16Y, op, f⟩ s) 2 = .ok v →
      exec (.zeropageIndirect16Y op f p) s = .next (s.handed (if op = OpClass.jump then v + s.yr else s.past f 1) op f.rs (.ea (v + s.yr)))) ∧
    (∀ p : BitVec 8, s.memRead .addressRead (p.setWidth 64 + offsetValue ⟨.zeropageXIndirect16, op, f⟩ s + s.xr) 2 = .ok v →
      exec (.zeropageXIndirect16 op f p) s = .next (s.handed (if op = OpClass.jump then v else s.past f 1) op f.rs (.ea v))) ∧
    (∀ p : BitVec 16, s.memRead .addressRead (p.setWidth 64 + offsetValue ⟨.absoluteIndirect16, op, f⟩ s) 2 = .ok v →
      exec (.absoluteIndirect16 op f p) s = .next (s.handed (if op = OpClass.jump then v else s.past f 2) op f.rs (.ea v))) ∧
    (∀ p : BitVec 16, s.memRead .addressRead (p.setWidth 64 + offsetValue ⟨.absoluteIndirect16Y, op, f⟩ s) 2 = .ok v →
      exec (.absoluteIndirect16Y op f p) s = .next (s.handed (if op = OpClass.jump then v + s.yr else s.past f 2) op f.rs (.ea (v + s.yr)))) ∧
    (∀ p : BitVec 16, s.memRead .addressRead (p.setWidth 64 + offsetValue ⟨.absoluteXIndirect16, op, f⟩ s + s.xr) 2 = .ok v →
      exec (.absoluteXIndirect16 op f p) s = .next (s.handed (if op = OpClass.jump then v else s.past f 2) op f.rs (.ea v)))

/-- R130 to R135: the indirect modes that read a 32-bit address. Where the 4 bytes at the location can be read, with value
`v` (Obligations.MemReadValue), the effective address is `v`, plus Y where the mode is post-indexed; X is added to the
location. An operation of class jump uses it as its target (R61, assumption 13). -/
def Obligations.IndirectLongModesComplete : Prop :=
  ∀ (op : OpClass) (f : Pfx) (s : State) (v : Word), op = OpClass.data ∨ op = OpClass.jump →
    (∀ p : BitVec 8, s.memRead .addressRead (p.setWidth 64 + offsetValue ⟨.zeropageIndirect32, op, f⟩ s) 4 = .ok v →
      exec (.zeropageIndirect32 op f p) s = .next (s.handed (if op = OpClass.jump then v else s.past f 1) op f.rs (.ea v))) ∧
    (∀ p : BitVec 8, s.memRead .addressRead (p.setWidth 64 + offsetValue ⟨.zeropageIndirect32Y, op, f⟩ s) 4 = .ok v →
      exec (.zeropageIndirect32Y op f p) s = .next (s.handed (if op = OpClass.jump then v + s.yr else s.past f 1) op f.rs (.ea (v + s.yr)))) ∧
    (∀ p : BitVec 8, s.memRead .addressRead (p.setWidth 64 + offsetValue ⟨.zeropageXIndirect32, op, f⟩ s + s.xr) 4 = .ok v →
      exec (.zeropageXIndirect32 op f p) s = .next (s.handed (if op = OpClass.jump then v else s.past f 1) op f.rs (.ea v))) ∧
    (∀ p : BitVec 16, s.memRead .addressRead (p.setWidth 64 + offsetValue ⟨.absoluteIndirect32, op, f⟩ s) 4 = .ok v →
      exec (.absoluteIndirect32 op f p) s = .next (s.handed (if op = OpClass.jump then v else s.past f 2) op f.rs (.ea v))) ∧
    (∀ p : BitVec 16, s.memRead .addressRead (p.setWidth 64 + offsetValue ⟨.absoluteIndirect32Y, op, f⟩ s) 4 = .ok v →
      exec (.absoluteIndirect32Y op f p) s = .next (s.handed (if op = OpClass.jump then v + s.yr else s.past f 2) op f.rs (.ea (v + s.yr)))) ∧
    (∀ p : BitVec 16, s.memRead .addressRead (p.setWidth 64 + offsetValue ⟨.absoluteXIndirect32, op, f⟩ s + s.xr) 4 = .ok v →
      exec (.absoluteXIndirect32 op f p) s = .next (s.handed (if op = OpClass.jump then v else s.past f 2) op f.rs (.ea v)))

/-- R136 to R141: the indirect modes that read a 64-bit address. Where the 8 bytes at the location can be read, with value
`v` (Obligations.MemReadValue), the effective address is `v`, plus Y where the mode is post-indexed; X is added to the
location. An operation of class jump uses it as its target (R61, assumption 13). -/
def Obligations.IndirectQuadModesComplete : Prop :=
  ∀ (op : OpClass) (f : Pfx) (s : State) (v : Word), op = OpClass.data ∨ op = OpClass.jump →
    (∀ p : BitVec 8, s.memRead .addressRead (p.setWidth 64 + offsetValue ⟨.zeropageIndirect64, op, f⟩ s) 8 = .ok v →
      exec (.zeropageIndirect64 op f p) s = .next (s.handed (if op = OpClass.jump then v else s.past f 1) op f.rs (.ea v))) ∧
    (∀ p : BitVec 8, s.memRead .addressRead (p.setWidth 64 + offsetValue ⟨.zeropageIndirect64Y, op, f⟩ s) 8 = .ok v →
      exec (.zeropageIndirect64Y op f p) s = .next (s.handed (if op = OpClass.jump then v + s.yr else s.past f 1) op f.rs (.ea (v + s.yr)))) ∧
    (∀ p : BitVec 8, s.memRead .addressRead (p.setWidth 64 + offsetValue ⟨.zeropageXIndirect64, op, f⟩ s + s.xr) 8 = .ok v →
      exec (.zeropageXIndirect64 op f p) s = .next (s.handed (if op = OpClass.jump then v else s.past f 1) op f.rs (.ea v))) ∧
    (∀ p : BitVec 16, s.memRead .addressRead (p.setWidth 64 + offsetValue ⟨.absoluteIndirect64, op, f⟩ s) 8 = .ok v →
      exec (.absoluteIndirect64 op f p) s = .next (s.handed (if op = OpClass.jump then v else s.past f 2) op f.rs (.ea v))) ∧
    (∀ p : BitVec 16, s.memRead .addressRead (p.setWidth 64 + offsetValue ⟨.absoluteIndirect64Y, op, f⟩ s) 8 = .ok v →
      exec (.absoluteIndirect64Y op f p) s = .next (s.handed (if op = OpClass.jump then v + s.yr else s.past f 2) op f.rs (.ea (v + s.yr)))) ∧
    (∀ p : BitVec 16, s.memRead .addressRead (p.setWidth 64 + offsetValue ⟨.absoluteXIndirect64, op, f⟩ s + s.xr) 8 = .ok v →
      exec (.absoluteXIndirect64 op f p) s = .next (s.handed (if op = OpClass.jump then v else s.past f 2) op f.rs (.ea v)))

/-- R153, R157: an indirect mode whose address bytes cannot all be read faults, with the fault of the read
(Obligations.MemReadFault), and answers no next state. -/
def Obligations.IndirectModesFault : Prop :=
  ∀ (op : OpClass) (f : Pfx) (s : State) (e : Fault),
    (∀ p : BitVec 8, s.memRead .addressRead (p.setWidth 64 + offsetValue ⟨.zeropageIndirect16, op, f⟩ s) 2 = .error e →
      exec (.zeropageIndirect16 op f p) s = .fault e) ∧
    (∀ p : BitVec 8, s.memRead .addressRead (p.setWidth 64 + offsetValue ⟨.zeropageIndirect16Y, op, f⟩ s) 2 = .error e →
      exec (.zeropageIndirect16Y op f p) s = .fault e) ∧
    (∀ p : BitVec 8, s.memRead .addressRead (p.setWidth 64 + offsetValue ⟨.zeropageXIndirect16, op, f⟩ s + s.xr) 2 = .error e →
      exec (.zeropageXIndirect16 op f p) s = .fault e) ∧
    (∀ p : BitVec 16, s.memRead .addressRead (p.setWidth 64 + offsetValue ⟨.absoluteIndirect16, op, f⟩ s) 2 = .error e →
      exec (.absoluteIndirect16 op f p) s = .fault e) ∧
    (∀ p : BitVec 16, s.memRead .addressRead (p.setWidth 64 + offsetValue ⟨.absoluteIndirect16Y, op, f⟩ s) 2 = .error e →
      exec (.absoluteIndirect16Y op f p) s = .fault e) ∧
    (∀ p : BitVec 16, s.memRead .addressRead (p.setWidth 64 + offsetValue ⟨.absoluteXIndirect16, op, f⟩ s + s.xr) 2 = .error e →
      exec (.absoluteXIndirect16 op f p) s = .fault e) ∧
    (∀ p : BitVec 8, s.memRead .addressRead (p.setWidth 64 + offsetValue ⟨.zeropageIndirect32, op, f⟩ s) 4 = .error e →
      exec (.zeropageIndirect32 op f p) s = .fault e) ∧
    (∀ p : BitVec 8, s.memRead .addressRead (p.setWidth 64 + offsetValue ⟨.zeropageIndirect32Y, op, f⟩ s) 4 = .error e →
      exec (.zeropageIndirect32Y op f p) s = .fault e) ∧
    (∀ p : BitVec 8, s.memRead .addressRead (p.setWidth 64 + offsetValue ⟨.zeropageXIndirect32, op, f⟩ s + s.xr) 4 = .error e →
      exec (.zeropageXIndirect32 op f p) s = .fault e) ∧
    (∀ p : BitVec 16, s.memRead .addressRead (p.setWidth 64 + offsetValue ⟨.absoluteIndirect32, op, f⟩ s) 4 = .error e →
      exec (.absoluteIndirect32 op f p) s = .fault e) ∧
    (∀ p : BitVec 16, s.memRead .addressRead (p.setWidth 64 + offsetValue ⟨.absoluteIndirect32Y, op, f⟩ s) 4 = .error e →
      exec (.absoluteIndirect32Y op f p) s = .fault e) ∧
    (∀ p : BitVec 16, s.memRead .addressRead (p.setWidth 64 + offsetValue ⟨.absoluteXIndirect32, op, f⟩ s + s.xr) 4 = .error e →
      exec (.absoluteXIndirect32 op f p) s = .fault e) ∧
    (∀ p : BitVec 8, s.memRead .addressRead (p.setWidth 64 + offsetValue ⟨.zeropageIndirect64, op, f⟩ s) 8 = .error e →
      exec (.zeropageIndirect64 op f p) s = .fault e) ∧
    (∀ p : BitVec 8, s.memRead .addressRead (p.setWidth 64 + offsetValue ⟨.zeropageIndirect64Y, op, f⟩ s) 8 = .error e →
      exec (.zeropageIndirect64Y op f p) s = .fault e) ∧
    (∀ p : BitVec 8, s.memRead .addressRead (p.setWidth 64 + offsetValue ⟨.zeropageXIndirect64, op, f⟩ s + s.xr) 8 = .error e →
      exec (.zeropageXIndirect64 op f p) s = .fault e) ∧
    (∀ p : BitVec 16, s.memRead .addressRead (p.setWidth 64 + offsetValue ⟨.absoluteIndirect64, op, f⟩ s) 8 = .error e →
      exec (.absoluteIndirect64 op f p) s = .fault e) ∧
    (∀ p : BitVec 16, s.memRead .addressRead (p.setWidth 64 + offsetValue ⟨.absoluteIndirect64Y, op, f⟩ s) 8 = .error e →
      exec (.absoluteIndirect64Y op f p) s = .fault e) ∧
    (∀ p : BitVec 16, s.memRead .addressRead (p.setWidth 64 + offsetValue ⟨.absoluteXIndirect64, op, f⟩ s + s.xr) 8 = .error e →
      exec (.absoluteXIndirect64 op f p) s = .fault e)

/-- R142 to R146: the relative modes of branches give as target RelBase plus the sign-extended offset. Whether the
branch is taken is a free value (assumption 14). -/
def Obligations.BranchModesComplete : Prop :=
  ∀ (f : Pfx) (s : State),
    (∀ p : BitVec 8, exec (.relative .branch f p) s =
      let a := relBase ⟨.relative, .branch, f⟩ s + p.signExtend 64
      .next (s.handed (if Config.branchTaken s.free then a else s.past f 1) .branch f.rs (.target a))) ∧
    (∀ p : BitVec 16, exec (.relative16 .branch f p) s =
      let a := relBase ⟨.relative16, .branch, f⟩ s + p.signExtend 64
      .next (s.handed (if Config.branchTaken s.free then a else s.past f 2) .branch f.rs (.target a))) ∧
    (∀ p : BitVec 32, exec (.relative32 .branch f p) s =
      let a := relBase ⟨.relative32, .branch, f⟩ s + p.signExtend 64
      .next (s.handed (if Config.branchTaken s.free then a else s.past f 4) .branch f.rs (.target a))) ∧
    (∀ p : BitVec 64, exec (.relative64 .branch f p) s =
      let a := relBase ⟨.relative64, .branch, f⟩ s + p
      .next (s.handed (if Config.branchTaken s.free then a else s.past f 8) .branch f.rs (.target a)))

/-- R142, R147 to R150: the relative modes of BSR give as target RelBase plus the sign-extended offset. That BSR leaves
PC at the target is the model's reading (assumption 13). -/
def Obligations.BsrModesComplete : Prop :=
  ∀ (f : Pfx) (s : State),
    (∀ p : BitVec 8, exec (.relativeBsr .bsr f p) s =
      let a := relBase ⟨.relativeBsr, .bsr, f⟩ s + p.signExtend 64
      .next (s.handed a .bsr f.rs (.target a))) ∧
    (∀ p : BitVec 16, exec (.relative16Bsr .bsr f p) s =
      let a := relBase ⟨.relative16Bsr, .bsr, f⟩ s + p.signExtend 64
      .next (s.handed a .bsr f.rs (.target a))) ∧
    (∀ p : BitVec 32, exec (.relative32Bsr .bsr f p) s =
      let a := relBase ⟨.relative32Bsr, .bsr, f⟩ s + p.signExtend 64
      .next (s.handed a .bsr f.rs (.target a))) ∧
    (∀ p : BitVec 64, exec (.relative64Bsr .bsr f p) s =
      let a := relBase ⟨.relative64Bsr, .bsr, f⟩ s + p
      .next (s.handed a .bsr f.rs (.target a)))

/-! ### Memory -/

/-- R40: where the MemFault predicate holds for a byte, its read raises MemFault with the address, for every
instruction; the predicate of a platform that provides none is false everywhere, and so it is at reset. -/
def Obligations.MemFaultHook : Prop :=
  (∀ (s : State) (k : AccessKind) (a : Word),
    memFaultAt s.platform a k = true → s.byteAt k a = .error (.memFault s.pc a k)) ∧
  (∀ (s : State) (k : AccessKind) (a : Word), memFaultAt s.platform a k = false → ∀ b,
    s.mem.read a.toNat = some b → s.byteAt k a = .ok b) ∧
  ∀ (k : AccessKind) (a : Word), memFaultAt State.reset.platform a k = false

/-- R25, R27: where every byte of an access can be read, MemRead gives the sum of byte `i` times 2^(8i), the bytes at
consecutive addresses modulo 2^64. -/
def Obligations.MemReadValue : Prop :=
  ∀ (s : State) (k : AccessKind) (a : Word) (n : Nat) (b : Nat → Byte), n ≤ 8 →
    (∀ i < n, s.byteAt k (a + BitVec.ofNat 64 i) = .ok (b i)) →
    s.memRead k a n = .ok (BitVec.ofNat 64 (∑ i ∈ Finset.range n, (b i).toNat * 2 ^ (8 * i)))

/-- R26: an address read from memory has its least significant byte at the lowest address: the word at `L` is
byte(L) + 256 byte(L+1), it is the low half of the long at `L`, and that is the low half of the quad at `L`. -/
def Obligations.AddressReadByteOrder : Prop :=
  (∀ (s : State) (l : Word) (b : Nat → Byte) (n : Nat), n = 2 ∨ n = 4 ∨ n = 8 →
    (∀ i < n, s.byteAt .addressRead (l + BitVec.ofNat 64 i) = .ok (b i)) →
    s.memRead .addressRead l n = .ok (BitVec.ofNat 64 (∑ i ∈ Finset.range n, (b i).toNat * 256 ^ i))) ∧
  (∀ (s : State) (l v : Word), s.memRead .addressRead l 8 = .ok v →
    s.memRead .addressRead l 4 = .ok (BitVec.ofNat 64 (v.toNat % 2 ^ 32))) ∧
  ∀ (s : State) (l v : Word), s.memRead .addressRead l 4 = .ok v →
    s.memRead .addressRead l 2 = .ok (BitVec.ofNat 64 (v.toNat % 2 ^ 16))

/-- R156, R153: MemRead faults exactly where a byte of the access cannot be read, and then with the fault of the first
such byte in address order. -/
def Obligations.MemReadFault : Prop :=
  ∀ (s : State) (k : AccessKind) (a : Word) (n : Nat) (e : Fault),
    s.memRead k a n = .error e ↔
      ∃ i < n, s.byteAt k (a + BitVec.ofNat 64 i) = .error e ∧
        ∀ j < i, ∃ b, s.byteAt k (a + BitVec.ofNat 64 j) = .ok b

/-- R28: no wrap inside a region: the bytes of an address read by an indirect mode stand at consecutive 64-bit
addresses; `(zp)` with parameter `$FF` reads `$FF` and `$100` (assumptions 6, 7). PC of the instance: assumption 33. -/
def Obligations.PointerBytesAreConsecutive : Prop :=
  (∀ (a : Word) (n : Nat),
    accessAddresses .addressRead a n = (List.range n).map (fun i => a + BitVec.ofNat 64 i)) ∧
  ∀ (f : Pfx) (s : State) (x y : Byte), f.off = .none →
    s.byteAt .addressRead 0xFF = .ok x → s.byteAt .addressRead 0x100 = .ok y →
    exec (.zeropageIndirect16 .data f 0xFF) s =
      .next (s.handed (s.past f 1) .data f.rs (.ea (BitVec.ofNat 64 (x.toNat + 256 * y.toNat))))

/-- R32: reading a location gives the last value written: MemRead after MemWrite of the same width and address, where
no byte of it faults. What MemWrite does is the model's choice (assumption 37). -/
def Obligations.MemReadAfterMemWrite : Prop :=
  ∀ (s : State) (k : AccessKind) (a v : Word) (n : Nat), n ≤ 8 →
    (∀ i < n, memFaultAt s.platform (a + BitVec.ofNat 64 i) k = false) →
    (s.memWrite a n v).memRead k a n = .ok (BitVec.ofNat 64 (v.toNat % 2 ^ (8 * n)))

/-- MemWrite leaves every byte outside the `n` bytes from `a` on as it was. What MemWrite does is the model's choice
(assumption 37). -/
def Obligations.MemWriteFrame : Prop :=
  ∀ (s : State) (a v : Word) (n : Nat) (x : Word), (∀ i < n, x ≠ a + BitVec.ofNat 64 i) →
    (s.memWrite a n v).mem.read x.toNat = s.mem.read x.toNat

/-! ### Registers and the offset prefix -/

/-- R17: the value an index register contributes is the whole register, an unsigned 64-bit number, whatever RS is. -/
def Obligations.IndexIsWholeRegister : Prop :=
  ∀ (h : Head) (p : Word) (s : State),
    idxVal s.xr = s.xr.setWidth 64 ∧ (idxVal s.xr).toNat = s.xr.toNat ∧
    idxVal s.yr = s.yr.setWidth 64 ∧ (idxVal s.yr).toNat = s.yr.toNat ∧
    directAddress h p .x s = directAddress h p .none s + s.xr.setWidth 64 ∧
    directAddress h p .y s = directAddress h p .none s + s.yr.setWidth 64

/-- After R90: Off(00) = 0, Off(01) = PCv, Off(10) = SR, Off(11) = BR; the address functions, given any 64-bit word as
the extended parameter, start from that word plus Off(OF), modulo 2^64, and give the address they give without OF with
that sum as the parameter. That each mode extends its parameter and adds Off(OF) is said of `exec` in the completion
statements. -/
def Obligations.OffsetRegisterTable : Prop :=
  ∀ (h : Head) (p : Word) (s : State),
    offsetValue h s = (match h.f.off with
      | .none => 0
      | .pc => pcValue h s
      | .sr => s.sr
      | .br => s.br) ∧
    offsetBase h p s = p + offsetValue h s ∧
    let plain : Head := { h with f := { h.f with off := .none } }
    offsetBase plain (p + offsetValue h s) s = offsetBase h p s ∧
    (∀ ix, directAddress h p ix s = directAddress plain (p + offsetValue h s) ix s) ∧
    ∀ ix w, indirectResult h p w ix s = indirectResult plain (p + offsetValue h s) w ix s

/-- R91 to R94: the syntax of each OF value and the seven examples of the source, each with the effective address the
rules give it. -/
def Obligations.OffsetPrefixExamples : Prop :=
  offsetToks .none = [] ∧ offsetToks .pc = [.pPre] ∧ offsetToks .sr = [.sPre] ∧ offsetToks .br = [.bPre] ∧
  (∀ (h : Head) (p : Word) (s : State),
    (h.f.off = .none → offsetValue h s = 0 ∧ offsetBase h p s = p) ∧ (h.f.off = .pc → offsetValue h s = pcValue h s) ∧
    (h.f.off = .sr → offsetValue h s = s.sr) ∧ (h.f.off = .br → offsetValue h s = s.br)) ∧
  ∀ (s : State) (rs : RS) (am : Bool) (len : Nat),
    (∃ pc, exec (.absolute16 .data ⟨am, .none, rs, len⟩ 0x1234) s =
      .next (s.handed pc .data rs (.ea 0x1234))) ∧
    (∃ pc, exec (.absolute16 .data ⟨am, .pc, rs, len⟩ 0x1234) s =
      .next (s.handed pc .data rs
        (.ea (pcValue ⟨.absolute16, .data, ⟨am, .pc, rs, len⟩⟩ s + 0x1234)))) ∧
    (∀ v, s.memRead .addressRead (pcValue ⟨.zeropageIndirect16Y, .data, ⟨am, .pc, rs, len⟩⟩ s + 0x12) 2 = .ok v →
      ∃ pc, exec (.zeropageIndirect16Y .data ⟨am, .pc, rs, len⟩ 0x12) s =
        .next (s.handed pc .data rs (.ea (v + s.yr)))) ∧
    (∃ pc, exec (.absolute16 .data ⟨am, .sr, rs, len⟩ 0x1234) s =
      .next (s.handed pc .data rs (.ea (s.sr + 0x1234)))) ∧
    (∀ v, s.memRead .addressRead (s.sr + 0x23 + s.xr) 4 = .ok v →
      ∃ pc, exec (.zeropageXIndirect32 .data ⟨am, .sr, rs, len⟩ 0x23) s =
        .next (s.handed pc .data rs (.ea v))) ∧
    (∃ pc, exec (.absolute16 .data ⟨am, .br, rs, len⟩ 0x1234) s =
      .next (s.handed pc .data rs (.ea (s.br + 0x1234)))) ∧
    (∃ pc, exec (.zeropageX .data ⟨am, .br, rs, len⟩ 0x12) s =
      .next (s.handed pc .data rs (.ea (s.br + 0x12 + s.xr))))

/-- R98, D10: PCv at each of the four candidate points a launch state may name; where it names none, PCv is a free
value that no two RS values tell apart (R2, assumption 9). -/
def Obligations.PcValueCandidates : Prop :=
  ∀ (h : Head) (s : State),
    (s.platform.pcrelBase = .start → pcValue h s = s.pc) ∧
    (s.platform.pcrelBase = .opcode → pcValue h s = s.pc + BitVec.ofNat 64 h.f.len) ∧
    (s.platform.pcrelBase = .param → pcValue h s = s.pc + BitVec.ofNat 64 (h.f.len + 1)) ∧
    (s.platform.pcrelBase = .next → pcValue h s = s.past h.f (paramLen h.mode)) ∧
    (s.platform.pcrelBase = .unstated → pcValue h s = Config.pcrelBase { diOf h s.pc with rs := .rs00 })

/-- R142, D11: RelBase at each of the candidate points; where the launch state names none it is a free value
(assumption 10). -/
def Obligations.RelBaseCandidates : Prop :=
  ∀ (h : Head) (s : State),
    (s.platform.branchBase = .start → relBase h s = s.pc) ∧
    (s.platform.branchBase = .opcode → relBase h s = s.pc + BitVec.ofNat 64 h.f.len) ∧
    (s.platform.branchBase = .param → relBase h s = s.pc + BitVec.ofNat 64 (h.f.len + 1)) ∧
    (s.platform.branchBase = .next → relBase h s = s.past h.f (paramLen h.mode)) ∧
    (s.platform.branchBase = .unstated → relBase h s = Config.branchBase (diOf h s.pc))

/-- R99, R110 for `B,zp,X` and an instance of `S,abs`: the sum is modulo 2^64 with no wrap at the parameter's own width
(assumptions 7, 8): `B,$FF,X` with X = 1 is BR + $100, and `S,$FFFF` with SR = 1 is $10000. PC: assumption 33. -/
def Obligations.OffsetSumsDoNotWrapInside : Prop :=
  (∀ (f : Pfx) (p : BitVec 8) (s : State), f.off = .br → ∃ a,
    exec (.zeropageX .data f p) s = .next (s.handed (s.past f 1) .data f.rs (.ea a)) ∧
    a.toNat = (p.toNat + s.br.toNat + s.xr.toNat) % 2 ^ 64) ∧
  (∀ (f : Pfx) (s : State), f.off = .br → s.xr = 1 →
    exec (.zeropageX .data f 0xFF) s = .next (s.handed (s.past f 1) .data f.rs (.ea (s.br + 0x100)))) ∧
  ∀ (f : Pfx) (s : State), f.off = .sr → s.sr = 1 →
    exec (.absolute16 .data f 0xFFFF) s = .next (s.handed (s.past f 2) .data f.rs (.ea 0x10000))

/-- R151: the offset of a relative mode with an n-byte parameter ranges over exactly -2^(8n-1) to 2^(8n-1) - 1, and
the target is RelBase plus that offset modulo 2^64; so for the four branch forms and the four BSR forms. -/
def Obligations.RelativeOffsetRanges : Prop :=
  (∀ k : Nat, k = 8 ∨ k = 16 ∨ k = 32 ∨ k = 64 →
    (∀ p : BitVec k, -2 ^ (k - 1) ≤ (sext64 p).toInt ∧ (sext64 p).toInt ≤ 2 ^ (k - 1) - 1) ∧
    ∀ z : Int, -2 ^ (k - 1) ≤ z → z ≤ 2 ^ (k - 1) - 1 → ∃ p : BitVec k, (sext64 p).toInt = z) ∧
  ∀ (f : Pfx) (s : State),
    (∀ p : BitVec 8, ∃ pc, exec (.relative .branch f p) s =
      .next (s.handed pc .branch f.rs (.target (relBase ⟨.relative, .branch, f⟩ s + BitVec.ofInt 64 p.toInt)))) ∧
    (∀ p : BitVec 16, ∃ pc, exec (.relative16 .branch f p) s =
      .next (s.handed pc .branch f.rs (.target (relBase ⟨.relative16, .branch, f⟩ s + BitVec.ofInt 64 p.toInt)))) ∧
    (∀ p : BitVec 32, ∃ pc, exec (.relative32 .branch f p) s =
      .next (s.handed pc .branch f.rs (.target (relBase ⟨.relative32, .branch, f⟩ s + BitVec.ofInt 64 p.toInt)))) ∧
    (∀ p : BitVec 64, ∃ pc, exec (.relative64 .branch f p) s =
      .next (s.handed pc .branch f.rs (.target (relBase ⟨.relative64, .branch, f⟩ s + BitVec.ofInt 64 p.toInt)))) ∧
    (∀ p : BitVec 8, ∃ pc, exec (.relativeBsr .bsr f p) s =
      .next (s.handed pc .bsr f.rs (.target (relBase ⟨.relativeBsr, .bsr, f⟩ s + BitVec.ofInt 64 p.toInt)))) ∧
    (∀ p : BitVec 16, ∃ pc, exec (.relative16Bsr .bsr f p) s =
      .next (s.handed pc .bsr f.rs (.target (relBase ⟨.relative16Bsr, .bsr, f⟩ s + BitVec.ofInt 64 p.toInt)))) ∧
    (∀ p : BitVec 32, ∃ pc, exec (.relative32Bsr .bsr f p) s =
      .next (s.handed pc .bsr f.rs (.target (relBase ⟨.relative32Bsr, .bsr, f⟩ s + BitVec.ofInt 64 p.toInt)))) ∧
    (∀ p : BitVec 64, ∃ pc, exec (.relative64Bsr .bsr f p) s =
      .next (s.handed pc .bsr f.rs (.target (relBase ⟨.relative64Bsr, .bsr, f⟩ s + BitVec.ofInt 64 p.toInt))))

/-! ### Frames and isolation -/

/-- R33: no instruction writes memory: after every one of the 48 every byte of memory reads as before. -/
def Obligations.NoModeWritesMemory : Prop :=
  ∀ (i : Instr) (s t : State), exec i s = .next t → t.mem = s.mem ∧ ∀ a, t.mem.read a = s.mem.read a

/-- R18: no instruction changes XR, YR, E, SR, BR or the launch-state parameters, and only Accumulator mode, through
its operation, changes the accumulator (R101). One result is delivered, under the instruction's op class and RS. -/
def Obligations.RegisterFrame : Prop :=
  ∀ (i : Instr) (s t : State), exec i s = .next t →
    t.xr = s.xr ∧ t.yr = s.yr ∧ t.e = s.e ∧ t.sr = s.sr ∧ t.br = s.br ∧ t.platform = s.platform ∧
    ((instrHead i).mode ≠ .accumulator → t.acc = s.acc) ∧
    t.free = s.free + 1 ∧
    ∃ d, t.delivered = s.delivered ++ [d] ∧ d.op = (instrHead i).op ∧ d.rs = (instrHead i).f.rs

/-- R18, R33 over whole steps: a step changes nothing but PC, the accumulator and the model's own record. -/
def Obligations.StepFrame : Prop :=
  ∀ s t : State, step s = .next t →
    t.xr = s.xr ∧ t.yr = s.yr ∧ t.e = s.e ∧ t.sr = s.sr ∧ t.br = s.br ∧ t.mem = s.mem ∧ t.platform = s.platform ∧
    t.free = s.free + 1 ∧ ∃ d, t.delivered = s.delivered ++ [d]

/-- R52, R10: every instruction of class data leaves PC at the address after its last parameter byte, so it advances
by prefix length + 1 + parameter length. -/
def Obligations.DataInstructionsAdvance : Prop :=
  ∀ (i : Instr) (s t : State), (instrHead i).op = .data → i.wf = true → exec i s = .next t →
    t.pc = s.pc + BitVec.ofNat 64 ((instrHead i).f.len + 1 + paramLen (instrHead i).mode)

/-- R11, R12: XR is read only by the modes whose syntax contains `,X`, YR only by those whose syntax contains `,Y`:
another value of the register changes nothing else in the outcome of any other mode. -/
def Obligations.IndexRegistersReadOnlyWhereWritten : Prop :=
  ∀ (i : Instr) (s : State) (v : Word),
    (Tok.commaX ∉ operandForm (instrHead i).mode .none →
      exec i { s with xr := v } = mapNext (fun t => { t with xr := v }) (exec i s)) ∧
    (Tok.commaY ∉ operandForm (instrHead i).mode .none →
      exec i { s with yr := v } = mapNext (fun t => { t with yr := v }) (exec i s))

/-- R13, R14, R15, R16: E is read only by E indirect, SR only under OF = 10, BR only under OF = 11, and no mode reads
the accumulator. -/
def Obligations.OtherRegistersReadOnlyWhereSelected : Prop :=
  ∀ (i : Instr) (s : State) (v : Word),
    ((instrHead i).mode ≠ .eIndirect →
      exec i { s with e := v } = mapNext (fun t => { t with e := v }) (exec i s)) ∧
    ((instrHead i).f.off ≠ .sr →
      exec i { s with sr := v } = mapNext (fun t => { t with sr := v }) (exec i s)) ∧
    ((instrHead i).f.off ≠ .br →
      exec i { s with br := v } = mapNext (fun t => { t with br := v }) (exec i s)) ∧
    ((instrHead i).mode ≠ .accumulator →
      exec i { s with acc := v } = mapNext (fun t => { t with acc := v }) (exec i s))

/-- R109, R110, R142, R30: no mode but the eighteen indirect ones reads memory beyond its parameter. -/
def Obligations.OnlyIndirectModesReadMemory : Prop :=
  ∀ (i : Instr) (s : State) (m : Mem), indirectBase (modeRow (instrHead i).mode).base = false →
    exec i { s with mem := m } = mapNext (fun t => { t with mem := m }) (exec i s)

/-- R2, R45, U7: where a row admits every RS, RS selects nothing and changes no result: it is handed to the operation
and the rest of the outcome is the same. -/
def Obligations.RsDoesNotAffectAddresses : Prop :=
  (∀ (op : OpClass) (base : Base) (q am : Bool) (r r' : RS) (m : Mode), (modeRow m).rs = .any →
    resolve op base q am r = .ok m → resolve op base q am r' = .ok m) ∧
  ∀ (h : Head) (v : Nat) (r : RS) (s t : State), (modeRow h.mode).rs = .any → exec (mkInstr h v) s = .next t →
    ∃ d, t.delivered = s.delivered ++ [d] ∧
      exec (mkInstr { h with f := { h.f with rs := r } } v) s =
        .next { t with delivered := s.delivered ++ [{ d with rs := r }] }

/-! ### Selection of the mode -/

/-- R61: Resolve gives mode `m` exactly where the row of `m` in the opcode table has that base and Q and admits the op
class, AM and RS. -/
def Obligations.ResolveMatchesTable : Prop :=
  ∀ (op : OpClass) (base : Base) (q am : Bool) (rs : RS) (m : Mode),
    resolve op base q am rs = .ok m ↔
      (modeRow m).base = base ∧ (modeRow m).q = q ∧ (modeRow m).op.admits op = true ∧
      (modeRow m).am.admits am = true ∧ (modeRow m).rs.admits rs = true

/-- R62 to R67: AM = 1 takes the direct base modes to the 32-bit and 64-bit absolute modes; the parameter grows to 4
and 8 bytes, the index is kept, OF is used as before. A mirrored opcode of such a base is refused by the table of R61,
which the spec marks as derived (assumption 24). -/
def Obligations.AmTranslationOfDirectModes : Prop :=
  ∀ (rs : RS) (f : Pfx) (s : State),
    (∀ base ∈ [Base.zp, .zpX, .zpY, .abs, .absX, .absY], ∀ am, resolve .data base true am rs = .error .noSuchMode) ∧
    (resolve .data .zp false true rs = .ok .absolute32 ∧ paramLen .zeropage = 1 ∧ paramLen .absolute32 = 4 ∧
      ∀ p : BitVec 32, ∃ pc, exec (.absolute32 .data f p) s = .next (s.handed pc .data f.rs
        (.ea (p.setWidth 64 + offsetValue ⟨.absolute32, .data, f⟩ s)))) ∧
    (resolve .data .zpX false true rs = .ok .absolute32X ∧ paramLen .zeropageX = 1 ∧ paramLen .absolute32X = 4 ∧
      ∀ p : BitVec 32, ∃ pc, exec (.absolute32X .data f p) s = .next (s.handed pc .data f.rs
        (.ea (p.setWidth 64 + offsetValue ⟨.absolute32X, .data, f⟩ s + s.xr)))) ∧
    (resolve .data .zpY false true rs = .ok .absolute32Y ∧ paramLen .zeropageY = 1 ∧ paramLen .absolute32Y = 4 ∧
      ∀ p : BitVec 32, ∃ pc, exec (.absolute32Y .data f p) s = .next (s.handed pc .data f.rs
        (.ea (p.setWidth 64 + offsetValue ⟨.absolute32Y, .data, f⟩ s + s.yr)))) ∧
    (resolve .data .abs false true rs = .ok .absolute64 ∧ paramLen .absolute16 = 2 ∧ paramLen .absolute64 = 8 ∧
      ∀ p : BitVec 64, ∃ pc, exec (.absolute64 .data f p) s = .next (s.handed pc .data f.rs
        (.ea (p + offsetValue ⟨.absolute64, .data, f⟩ s)))) ∧
    (resolve .data .absX false true rs = .ok .absolute64X ∧ paramLen .absolute16X = 2 ∧ paramLen .absolute64X = 8 ∧
      ∀ p : BitVec 64, ∃ pc, exec (.absolute64X .data f p) s = .next (s.handed pc .data f.rs
        (.ea (p + offsetValue ⟨.absolute64X, .data, f⟩ s + s.xr)))) ∧
    (resolve .data .absY false true rs = .ok .absolute64Y ∧ paramLen .absolute16Y = 2 ∧ paramLen .absolute64Y = 8 ∧
      ∀ p : BitVec 64, ∃ pc, exec (.absolute64Y .data f p) s = .next (s.handed pc .data f.rs
        (.ea (p + offsetValue ⟨.absolute64Y, .data, f⟩ s + s.yr))))

/-- R68 to R73: AM = 1 takes an indirect base mode to its 32-bit form: the parameter keeps its length, 4 bytes are read as
the address instead of 2, X is added before the read, Y after it. -/
def Obligations.AmTranslationOfIndirectModes : Prop :=
  ∀ (op : OpClass) (rs : RS) (f : Pfx) (s : State) (v : Word), op = .data ∨ op = .jump →
    (resolve op .zpInd false true rs = .ok .zeropageIndirect32 ∧ paramLen .zeropageIndirect16 = 1 ∧ paramLen .zeropageIndirect32 = 1 ∧
      ∀ p : BitVec 8, s.memRead .addressRead (p.setWidth 64 + offsetValue ⟨.zeropageIndirect32, op, f⟩ s) 4 = .ok v →
        ∃ pc, exec (.zeropageIndirect32 op f p) s = .next (s.handed pc op f.rs (.ea v))) ∧
    (resolve op .zpIndY false true rs = .ok .zeropageIndirect32Y ∧ paramLen .zeropageIndirect16Y = 1 ∧ paramLen .zeropageIndirect32Y = 1 ∧
      ∀ p : BitVec 8, s.memRead .addressRead (p.setWidth 64 + offsetValue ⟨.zeropageIndirect32Y, op, f⟩ s) 4 = .ok v →
        ∃ pc, exec (.zeropageIndirect32Y op f p) s = .next (s.handed pc op f.rs (.ea (v + s.yr)))) ∧
    (resolve op .zpXInd false true rs = .ok .zeropageXIndirect32 ∧ paramLen .zeropageXIndirect16 = 1 ∧ paramLen .zeropageXIndirect32 = 1 ∧
      ∀ p : BitVec 8, s.memRead .addressRead (p.setWidth 64 + offsetValue ⟨.zeropageXIndirect32, op, f⟩ s + s.xr) 4 = .ok v →
        ∃ pc, exec (.zeropageXIndirect32 op f p) s = .next (s.handed pc op f.rs (.ea v))) ∧
    (resolve op .absInd false true rs = .ok .absoluteIndirect32 ∧ paramLen .absoluteIndirect16 = 2 ∧ paramLen .absoluteIndirect32 = 2 ∧
      ∀ p : BitVec 16, s.memRead .addressRead (p.setWidth 64 + offsetValue ⟨.absoluteIndirect32, op, f⟩ s) 4 = .ok v →
        ∃ pc, exec (.absoluteIndirect32 op f p) s = .next (s.handed pc op f.rs (.ea v))) ∧
    (resolve op .absIndY false true rs = .ok .absoluteIndirect32Y ∧ paramLen .absoluteIndirect16Y = 2 ∧ paramLen .absoluteIndirect32Y = 2 ∧
      ∀ p : BitVec 16, s.memRead .addressRead (p.setWidth 64 + offsetValue ⟨.absoluteIndirect32Y, op, f⟩ s) 4 = .ok v →
        ∃ pc, exec (.absoluteIndirect32Y op f p) s = .next (s.handed pc op f.rs (.ea (v + s.yr)))) ∧
    (resolve op .absXInd false true rs = .ok .absoluteXIndirect32 ∧ paramLen .absoluteXIndirect16 = 2 ∧ paramLen .absoluteXIndirect32 = 2 ∧
      ∀ p : BitVec 16, s.memRead .addressRead (p.setWidth 64 + offsetValue ⟨.absoluteXIndirect32, op, f⟩ s + s.xr) 4 = .ok v →
        ∃ pc, exec (.absoluteXIndirect32 op f p) s = .next (s.handed pc op f.rs (.ea v)))

/-- R74 to R79: AM = 1 on a mirrored opcode takes its indirect base mode to the 64-bit form: the parameter keeps its
length, 8 bytes are read as the address, X is added before the read, Y after it. -/
def Obligations.AmTranslationOfMirroredModes : Prop :=
  ∀ (op : OpClass) (rs : RS) (f : Pfx) (s : State) (v : Word), op = .data ∨ op = .jump →
    (resolve op .zpInd true true rs = .ok .zeropageIndirect64 ∧ paramLen .zeropageIndirect16 = 1 ∧ paramLen .zeropageIndirect64 = 1 ∧
      ∀ p : BitVec 8, s.memRead .addressRead (p.setWidth 64 + offsetValue ⟨.zeropageIndirect64, op, f⟩ s) 8 = .ok v →
        ∃ pc, exec (.zeropageIndirect64 op f p) s = .next (s.handed pc op f.rs (.ea v))) ∧
    (resolve op .zpIndY true true rs = .ok .zeropageIndirect64Y ∧ paramLen .zeropageIndirect16Y = 1 ∧ paramLen .zeropageIndirect64Y = 1 ∧
      ∀ p : BitVec 8, s.memRead .addressRead (p.setWidth 64 + offsetValue ⟨.zeropageIndirect64Y, op, f⟩ s) 8 = .ok v →
        ∃ pc, exec (.zeropageIndirect64Y op f p) s = .next (s.handed pc op f.rs (.ea (v + s.yr)))) ∧
    (resolve op .zpXInd true true rs = .ok .zeropageXIndirect64 ∧ paramLen .zeropageXIndirect16 = 1 ∧ paramLen .zeropageXIndirect64 = 1 ∧
      ∀ p : BitVec 8, s.memRead .addressRead (p.setWidth 64 + offsetValue ⟨.zeropageXIndirect64, op, f⟩ s + s.xr) 8 = .ok v →
        ∃ pc, exec (.zeropageXIndirect64 op f p) s = .next (s.handed pc op f.rs (.ea v))) ∧
    (resolve op .absInd true true rs = .ok .absoluteIndirect64 ∧ paramLen .absoluteIndirect16 = 2 ∧ paramLen .absoluteIndirect64 = 2 ∧
      ∀ p : BitVec 16, s.memRead .addressRead (p.setWidth 64 + offsetValue ⟨.absoluteIndirect64, op, f⟩ s) 8 = .ok v →
        ∃ pc, exec (.absoluteIndirect64 op f p) s = .next (s.handed pc op f.rs (.ea v))) ∧
    (resolve op .absIndY true true rs = .ok .absoluteIndirect64Y ∧ paramLen .absoluteIndirect16Y = 2 ∧ paramLen .absoluteIndirect64Y = 2 ∧
      ∀ p : BitVec 16, s.memRead .addressRead (p.setWidth 64 + offsetValue ⟨.absoluteIndirect64Y, op, f⟩ s) 8 = .ok v →
        ∃ pc, exec (.absoluteIndirect64Y op f p) s = .next (s.handed pc op f.rs (.ea (v + s.yr)))) ∧
    (resolve op .absXInd true true rs = .ok .absoluteXIndirect64 ∧ paramLen .absoluteXIndirect16 = 2 ∧ paramLen .absoluteXIndirect64 = 2 ∧
      ∀ p : BitVec 16, s.memRead .addressRead (p.setWidth 64 + offsetValue ⟨.absoluteXIndirect64, op, f⟩ s + s.xr) 8 = .ok v →
        ∃ pc, exec (.absoluteXIndirect64 op f p) s = .next (s.handed pc op f.rs (.ea v)))

/-- R80, R81: AM does not change the immediates (the one RS selects, its length, its value) nor Implied. -/
def Obligations.AmUnchangedOnImmediateAndImplied : Prop :=
  (∀ am : Bool,
    resolve .data .imm false am .rs00 = .ok .immediate ∧ resolve .data .imm false am .rs01 = .ok .immediate16 ∧
    resolve .data .imm false am .rs10 = .ok .immediate32 ∧ resolve .data .imm false am .rs11 = .ok .immediate64) ∧
  (∀ (op : OpClass) (am : Bool) (rs : RS), resolve op .implied false am rs = .ok .implied) ∧
  ∀ (op : OpClass) (f : Pfx) (am : Bool) (s : State),
    (∀ p, exec (.immediate op { f with am := am } p) s = exec (.immediate op f p) s) ∧
    (∀ p, exec (.immediate16 op { f with am := am } p) s = exec (.immediate16 op f p) s) ∧
    (∀ p, exec (.immediate32 op { f with am := am } p) s = exec (.immediate32 op f p) s) ∧
    (∀ p, exec (.immediate64 op { f with am := am } p) s = exec (.immediate64 op f p) s)

/-- R84, R85: a mirrored opcode with AM = 1 selects the 64-bit indirect form of its base mode; with AM = 0 it is
refused, whatever the op class; the unmirrored opcode of the same base is not refused. R53: `$h1` is mirrored to `$h3`
and `$h2` to `$h7`, with the same operation and base mode, for indirect base modes only (assumption 36). -/
def Obligations.MirroredRowsNeedAm : Prop :=
  (∀ (op : OpClass) (rs : RS) (base : Base), indirectBase base = true →
    resolve op base true false rs = .error .mirroredRowWithoutAm ∧
    (op = .data ∨ op = .jump → ∃ m m0, resolve op base true true rs = .ok m ∧ indirectMode base true true = some m ∧
      resolve op base false false rs = .ok m0 ∧ m ≠ m0 ∧ paramLen m = paramLen m0)) ∧
  (∀ h : BitVec 4, mirrorByte (h ++ 1#4) = some (h ++ 3#4) ∧ mirrorByte (h ++ 2#4) = some (h ++ 7#4)) ∧
  ∀ (l : List OpcEntry) (o' : OpcEntry), o' ∈ mirrorRows l ↔ ∃ o ∈ l, indirectBase o.base = true ∧ o.q = false ∧
    ∃ b, mirrorByte o.byte = some b ∧ o' = ⟨b, o.op, o.base, true⟩

/-- R89: a branch takes its offset width from RS, and AM = 1 on it is refused; BSR takes it from its base mode and AM,
and RS other than 00 on it is refused. -/
def Obligations.RelativeWidthSelection : Prop :=
  resolve .branch .rel false false .rs00 = .ok .relative ∧
  resolve .branch .rel false false .rs01 = .ok .relative16 ∧
  resolve .branch .rel false false .rs10 = .ok .relative32 ∧
  resolve .branch .rel false false .rs11 = .ok .relative64 ∧
  (∀ rs, resolve .branch .rel false true rs = .error .amOnBranch) ∧
  resolve .bsr .rel false false .rs00 = .ok .relativeBsr ∧
  resolve .bsr .relwide false false .rs00 = .ok .relative16Bsr ∧
  resolve .bsr .rel false true .rs00 = .ok .relative32Bsr ∧
  resolve .bsr .relwide false true .rs00 = .ok .relative64Bsr ∧
  ∀ am rs, rs ≠ .rs00 →
    resolve .bsr .rel false am rs = .error .rsOnBsr ∧ resolve .bsr .relwide false am rs = .error .rsOnBsr

/-- R54: the combinations that are refused, (a) to (e), and the two that are not: AM = 1 on Implied and on the
immediates. -/
def Obligations.ReservedCombinationsRefused : Prop :=
  (∀ (b : Byte) (op : OpClass) (base : Base) (f : Pfx), indirectBase base = true → f.am = false →
    classify ⟨b, op, base, true⟩ f = .error .mirroredRowWithoutAm) ∧
  (∀ (b : Byte) (op : OpClass) (f : Pfx), f.am = true →
    classify ⟨b, op, .accumulator, false⟩ f = .error .amOnUnlistedMode ∧
    classify ⟨b, .data, .eind, false⟩ f = .error .amOnUnlistedMode) ∧
  (∀ (o : OpcEntry) (f : Pfx) (m : Mode), resolve o.op o.base o.q f.am f.rs = .ok m → f.off ≠ .none →
    m ∈ [Mode.implied, .accumulator, .immediate, .immediate16, .immediate32, .immediate64, .eIndirect, .relative,
      .relative16, .relative32, .relative64, .relativeBsr, .relative16Bsr, .relative32Bsr, .relative64Bsr] →
    classify o f = .error .ofOnNonAddressMode) ∧
  (∀ (b : Byte) (f : Pfx),
    (f.am = true → classify ⟨b, .branch, .rel, false⟩ f = .error .amOnBranch) ∧
    (f.rs ≠ .rs00 → classify ⟨b, .bsr, .rel, false⟩ f = .error .rsOnBsr ∧
      classify ⟨b, .bsr, .relwide, false⟩ f = .error .rsOnBsr)) ∧
  (∀ (c : Platform) (bs rest : List Byte) (f : Pfx) (b : Byte), decodePfx c.pfx bs = .ok (f, b :: rest) →
    (∀ o ∈ c.opc, o.byte ≠ b) → decode c bs = .error (.unmappedOpcode b)) ∧
  ∀ (b : Byte) (op : OpClass) (f : Pfx), f.am = true → f.off = .none →
    classify ⟨b, op, .implied, false⟩ f = .ok .implied ∧ ∃ m, classify ⟨b, .data, .imm, false⟩ f = .ok m

/-- R97: OF other than 00 is admitted on exactly M3 to M5 and M11 to M40; on the other modes it is refused. -/
def Obligations.OffsetApplicability : Prop :=
  ∀ (o : OpcEntry) (f : Pfx) (m : Mode), resolve o.op o.base o.q f.am f.rs = .ok m →
    if m ∈ [Mode.implied, .accumulator, .immediate, .immediate16, .immediate32, .immediate64, .eIndirect, .relative,
      .relative16, .relative32, .relative64, .relativeBsr, .relative16Bsr, .relative32Bsr, .relative64Bsr]
    then classify o f = (if f.off = .none then .ok m else .error .ofOnNonAddressMode)
    else classify o f = .ok m

/-- R51, R96: the mode, and with it the parameter length, never depends on OF. -/
def Obligations.OffsetChangesNoLength : Prop :=
  ∀ (o : OpcEntry) (f : Pfx) (x : Offset) (m m' : Mode), classify o f = .ok m →
    classify o { f with off := x } = .ok m' → m' = m ∧ paramLen m' = paramLen m

/-- R42, R52, R86: an encoded instruction takes prefix length + 1 + parameter length bytes, with the parameter lengths
of the five formats; the parameter of an indirect mode is as wide with AM as without. -/
def Obligations.ParameterLengths : Prop :=
  (∀ (c : Platform) (i : Instr) (bs : List Byte), encode c i = some bs →
    bs.length = (instrHead i).f.len + 1 + paramLen (instrHead i).mode) ∧
  (∀ m ∈ [Mode.implied, .accumulator, .eIndirect], paramLen m = 0) ∧
  (∀ m ∈ [Mode.immediate, .zeropage, .zeropageX, .zeropageY, .zeropageIndirect16, .zeropageIndirect16Y,
    .zeropageXIndirect16, .zeropageIndirect32, .zeropageIndirect32Y, .zeropageXIndirect32, .zeropageIndirect64,
    .zeropageIndirect64Y, .zeropageXIndirect64, .relative, .relativeBsr], paramLen m = 1) ∧
  (∀ m ∈ [Mode.address, .immediate16, .absolute16, .absolute16X, .absolute16Y, .absoluteIndirect16,
    .absoluteIndirect16Y, .absoluteXIndirect16, .absoluteIndirect32, .absoluteIndirect32Y, .absoluteXIndirect32,
    .absoluteIndirect64, .absoluteIndirect64Y, .absoluteXIndirect64, .relative16, .relative16Bsr], paramLen m = 2) ∧
  (∀ m ∈ [Mode.addressLong, .immediate32, .absolute32, .absolute32X, .absolute32Y, .relative32, .relative32Bsr],
    paramLen m = 4) ∧
  ∀ m ∈ [Mode.addressQuad, .immediate64, .absolute64, .absolute64X, .absolute64Y, .relative64, .relative64Bsr],
    paramLen m = 8

/-- R56: the address prefix is nothing for OF = 00, `P,` for 01, `S,` for 10, `B,` for 11. In every operand form it
stands directly before the address, any index after that, and taking it out leaves the form without a prefix; inside the
brackets of an indirect form. -/
def Obligations.AddressPrefixStandsBeforeAddress : Prop :=
  (offsetToks .none = [] ∧ offsetToks .pc = [.pPre] ∧ offsetToks .sr = [.sPre] ∧ offsetToks .br = [.bPre]) ∧
  ∀ (m : Mode) (off : Offset), (modeRow m).takesOffset = true → ∃ (before after : List Tok) (addr : Tok),
    (addr = .zp ∨ addr = .abs ∨ addr = .long ∨ addr = .quad) ∧
    operandForm m off = before ++ offsetToks off ++ addr :: after ∧ operandForm m .none = before ++ addr :: after ∧
    before = (if indirectBase (modeRow m).base then
      (if (modeRow m).q then [.openSq, .openSq] else if (modeRow m).am = .exactly true then [.openSq] else [.open_])
      else [])

/-! ### Decoding, encoding and the step -/

/-- R46: an instruction decoded without prefix bytes has AM = 0, OF = 00, RS = 00. -/
def Obligations.NoPrefixMeansZeroFields : Prop :=
  ∀ (c : Platform) (bs rest : List Byte) (i : Instr), decode c bs = .ok (i, rest) → (instrHead i).f.len = 0 →
    (instrHead i).f.am = false ∧ (instrHead i).f.off = .none ∧ (instrHead i).f.rs = .rs00

/-- R52, R61, R97: a decoded instruction is well formed and takes prefix length + 1 + ParamLen bytes; the bytes after
it are left as they stand. -/
def Obligations.DecodeIsSound : Prop :=
  ∀ (c : Platform) (bs rest : List Byte) (i : Instr), decode c bs = .ok (i, rest) →
    i.wf = true ∧ rest = bs.drop ((instrHead i).f.len + 1 + paramLen (instrHead i).mode) ∧
    (instrHead i).f.len + 1 + paramLen (instrHead i).mode ≤ bs.length

/-- Decoding depends on the instruction's own bytes alone: bytes that follow are left over, unread. -/
def Obligations.DecodeReadsOnlyItsBytes : Prop :=
  ∀ (c : Platform) (bs rest more : List Byte) (i : Instr), decode c bs = .ok (i, rest) →
    decode c (bs ++ more) = .ok (i, rest ++ more)

/-- Decode and encode agree: for every well-formed instruction, every operand at every value, and every platform whose
maps are unambiguous and give it bytes, decoding the bytes followed by any others gives the instruction back. -/
def Obligations.DecodeOfEncode : Prop :=
  ∀ (c : Platform) (i : Instr) (bs more : List Byte), c.unambiguous = true → i.wf = true → encode c i = some bs →
    decode c (bs ++ more) = .ok (i, more)

/-- Decoding is right on words the spec writes out (95_test_vectors.md programs P1 to P4, instance I-6502). -/
def Obligations.DecodesProgramWords : Prop :=
  decodeTableWord 16 0x10A5 = some (.zeropage .data Pfx.absent 0x10) ∧
  decodeTableWord 16 0x10B5 = some (.zeropageX .data Pfx.absent 0x10) ∧
  decodeTableWord 24 0x40104C = some (.address .jump Pfx.absent 0x4010) ∧
  decodeTableWord 16 0x0ED0 = some (.relative .branch Pfx.absent 0x0E) ∧
  decodeTableWord 24 0x30006C = some (.absoluteIndirect16 .jump Pfx.absent 0x3000) ∧
  decodeTableWord 16 0x10B1 = some (.zeropageIndirect16Y .data Pfx.absent 0x10) ∧
  decodeTableWord 16 0x10B3 = none

/-- R36: when the bytes at PC can be fetched and decode to an instruction, the step runs exactly that instruction. The
model adds nothing around it: `exec` itself moves PC. -/
def Obligations.StepRunsDecodedInstruction : Prop :=
  ∀ (s : State) (bs : List Byte) (i : Instr), decode s.platform bs = .ok (i, []) →
    (∀ (k : Nat) (hk : k < bs.length), s.byteAt .fetch (s.pc + BitVec.ofNat 64 k) = .ok bs[k]) →
    step s = exec i s

/-- R49: the parameter of the instruction a step decodes is MemRead of `n` bytes at DI.pa with kind fetch, DI.pa lies
after prefix and opcode, and DI.next = DI.pa + n; an instruction without parameter bytes has none. -/
def Obligations.ParameterIsMemRead : Prop :=
  ∀ (s : State) (i : Instr) (rest : List Byte), decode s.platform s.fetchWindow = .ok (i, rest) →
    let n := paramLen (instrHead i).mode
    let d := diOf (instrHead i) s.pc
    (n = 0 → instrParam i = 0) ∧
    (0 < n → s.memRead .fetch d.pa n = .ok (BitVec.ofNat 64 (instrParam i))) ∧
    d.pa = s.pc + BitVec.ofNat 64 ((instrHead i).f.len + 1) ∧ d.next = d.pa + BitVec.ofNat 64 n

/-- R9, R154: where the bytes at PC are refused, the step refuses with the decoder's reason. -/
def Obligations.StepRefusesUndecodable : Prop :=
  ∀ (s : State) (r : Reject), decode s.platform s.fetchWindow = .error r → r ≠ .truncated →
    step s = .refused (.undecodable s.pc r)

/-- R36, R153, R156: where the instruction's bytes cannot all be fetched, the step faults with the fault of the first
byte from PC on that cannot be read, and every byte before it can. -/
def Obligations.StepFaultsWhereFetchStops : Prop :=
  ∀ s : State, decode s.platform s.fetchWindow = .error .truncated →
    ∃ e, step s = .fault e ∧ s.byteAt .fetch (s.pc + BitVec.ofNat 64 s.fetchWindow.length) = .error e ∧
      ∀ (k : Nat) (hk : k < s.fetchWindow.length),
        s.byteAt .fetch (s.pc + BitVec.ofNat 64 k) = .ok s.fetchWindow[k]

/-! ### The whole machine -/

/-- Every step keeps the invariant: memory stays in its canonical form, and only results that the selected mode may
give its op class and RS (R45, R61) are ever handed to an operation. -/
def Obligations.StepKeepsInvariant : Prop :=
  ∀ s t : State, s.Inv → step s = .next t → t.Inv

/-- The invariant holds after reset: memory is canonical and whatever is in `delivered` is admissible. -/
def Obligations.ResetSatisfiesInvariant : Prop := State.reset.Inv

/-- What reset leaves: the spec gives no value (R22, R164); the zeros are the model's choice (assumption 3), memory
lists nothing (assumption 4) and the OPEN parameters are not provided (assumption 11). -/
def Obligations.ResetValues : Prop :=
  State.reset.pc = 0 ∧ State.reset.xr = 0 ∧ State.reset.yr = 0 ∧ State.reset.e = 0 ∧ State.reset.sr = 0 ∧
  State.reset.br = 0 ∧ State.reset.acc = 0 ∧ (∀ a, State.reset.mem.read a = none) ∧
  State.reset.platform.opc = [] ∧ State.reset.platform.pfx = [] ∧
  State.reset.platform.pcrelBase = .unstated ∧ State.reset.platform.branchBase = .unstated ∧
  State.reset.platform.memFault = []
end

