-- ==== Sys2Proof/Laws/State.lean ====
section
/-!
SUPPORT. What each update of the state leaves in each field.
-/

namespace Sys2Proof.Machine

section
variable (s : State) (h : Head) (r : ModeResult)

@[simp] theorem State.deliver_pc : (s.deliver h r).pc = pcAfter h.op (nextAddress h s.pc) r s.free := rfl
@[simp] theorem State.deliver_xr : (s.deliver h r).xr = s.xr := rfl
@[simp] theorem State.deliver_yr : (s.deliver h r).yr = s.yr := rfl
@[simp] theorem State.deliver_e : (s.deliver h r).e = s.e := rfl
@[simp] theorem State.deliver_sr : (s.deliver h r).sr = s.sr := rfl
@[simp] theorem State.deliver_br : (s.deliver h r).br = s.br := rfl
@[simp] theorem State.deliver_acc : (s.deliver h r).acc = s.acc := rfl
@[simp] theorem State.deliver_mem : (s.deliver h r).mem = s.mem := rfl
@[simp] theorem State.deliver_platform : (s.deliver h r).platform = s.platform := rfl
@[simp] theorem State.deliver_delivered :
    (s.deliver h r).delivered = s.delivered ++ [{ op := h.op, rs := h.f.rs, result := r }] := rfl
@[simp] theorem State.deliver_free : (s.deliver h r).free = s.free + 1 := rfl
end

section
variable (s : State) (a : Word) (n : Nat) (v : Word)

@[simp] theorem State.memWrite_pc : (s.memWrite a n v).pc = s.pc := rfl
@[simp] theorem State.memWrite_xr : (s.memWrite a n v).xr = s.xr := rfl
@[simp] theorem State.memWrite_yr : (s.memWrite a n v).yr = s.yr := rfl
@[simp] theorem State.memWrite_e : (s.memWrite a n v).e = s.e := rfl
@[simp] theorem State.memWrite_sr : (s.memWrite a n v).sr = s.sr := rfl
@[simp] theorem State.memWrite_br : (s.memWrite a n v).br = s.br := rfl
@[simp] theorem State.memWrite_acc : (s.memWrite a n v).acc = s.acc := rfl
@[simp] theorem State.memWrite_mem :
    (s.memWrite a n v).mem = s.mem.writeBytes a (bytesOf params.byteOrder n v.toNat) := rfl
@[simp] theorem State.memWrite_platform : (s.memWrite a n v).platform = s.platform := rfl
@[simp] theorem State.memWrite_delivered : (s.memWrite a n v).delivered = s.delivered := rfl
@[simp] theorem State.memWrite_free : (s.memWrite a n v).free = s.free := rfl
end

section
variable (s : State) (bs : List Byte)

@[simp] theorem State.placeBytes_pc : (s.placeBytes bs).pc = s.pc := rfl
@[simp] theorem State.placeBytes_mem : (s.placeBytes bs).mem = s.mem.writeBytes s.pc bs := rfl
@[simp] theorem State.placeBytes_platform : (s.placeBytes bs).platform = s.platform := rfl
end

section
variable (s : State) (pc : Word) (op : OpClass) (rs : RS) (r : ModeResult)

@[simp] theorem State.handed_pc : (s.handed pc op rs r).pc = pc := rfl
@[simp] theorem State.handed_xr : (s.handed pc op rs r).xr = s.xr := rfl
@[simp] theorem State.handed_yr : (s.handed pc op rs r).yr = s.yr := rfl
@[simp] theorem State.handed_e : (s.handed pc op rs r).e = s.e := rfl
@[simp] theorem State.handed_sr : (s.handed pc op rs r).sr = s.sr := rfl
@[simp] theorem State.handed_br : (s.handed pc op rs r).br = s.br := rfl
@[simp] theorem State.handed_acc : (s.handed pc op rs r).acc = s.acc := rfl
@[simp] theorem State.handed_mem : (s.handed pc op rs r).mem = s.mem := rfl
@[simp] theorem State.handed_platform : (s.handed pc op rs r).platform = s.platform := rfl
@[simp] theorem State.handed_delivered :
    (s.handed pc op rs r).delivered = s.delivered ++ [{ op := op, rs := rs, result := r }] := rfl
@[simp] theorem State.handed_free : (s.handed pc op rs r).free = s.free + 1 := rfl

/-- Delivering is handing over with the PC that `pcAfter` gives. -/
theorem State.deliver_eq_handed (h : Head) :
    s.deliver h r = s.handed (pcAfter h.op (nextAddress h s.pc) r s.free) h.op h.f.rs r := rfl
end

/-- The address after an instruction, in the terms of `State.past` (R52). -/
theorem nextAddress_eq_past (s : State) (h : Head) : nextAddress h s.pc = s.past h.f (paramLen h.mode) := by
  simp only [nextAddress, paramAddress, opcodeAddress, State.past, add64, BitVec.ofNat_add, BitVec.add_assoc]
  rfl

end Sys2Proof.Machine
end

