-- ==== Sys2Proof/Laws/Memory.lean ====
section
/-!
SUPPORT. What the memory operations can do: a read after a write, the canonical form, and the bytes of a value.
-/

namespace Sys2Proof.Machine

@[simp] theorem Mem.read_nil (a : Nat) : Mem.read [] a = none := rfl

/-- A read after a one-byte write gives the byte written there, and elsewhere what stood there. -/
theorem Mem.read_write (m : Mem) (a x : Nat) (b : Byte) :
    (m.write a b).read x = if x = a then some b else m.read x := by
  induction m with
  | nil => simp only [Mem.write, Mem.read]; grind
  | cons c m ih =>
    simp only [Mem.write]
    split
    · simp only [Mem.read]; grind
    · split
      · simp only [Mem.read]; grind
      · simp only [Mem.read, ih]; grind

theorem Mem.mem_write {m : Mem} {a : Nat} {b : Byte} {c : Host.Cell} (h : c ∈ m.write a b) :
    c = (a, b) ∨ c ∈ m := by
  induction m with
  | nil => simpa [Mem.write] using h
  | cons d m ih =>
    simp only [Mem.write] at h
    split at h
    · simpa using h
    · split at h
      · rcases List.mem_cons.1 h with h | h
        · exact .inl h
        · exact .inr (List.mem_cons_of_mem _ h)
      · rcases List.mem_cons.1 h with h | h
        · exact .inr (h ▸ List.mem_cons_self ..)
        · rcases ih h with h | h
          · exact .inl h
          · exact .inr (List.mem_cons_of_mem _ h)

/-- A one-byte write keeps the canonical form. -/
theorem Mem.write_wf {m : Mem} {a : Nat} (b : Byte) (h : m.wf) (ha : a < 2 ^ 64) : (m.write a b).wf := by
  refine ⟨?_, fun c hc => ?_⟩
  · have hp := h.1
    clear h
    induction m with
    | nil => simp [Mem.write]
    | cons d m ih =>
      have hd := List.pairwise_cons.1 hp
      simp only [Mem.write]
      split
      · rename_i hlt
        refine List.pairwise_cons.2 ⟨fun x hx => ?_, hp⟩
        rcases List.mem_cons.1 hx with rfl | hx
        · exact hlt
        · exact Nat.lt_trans hlt (hd.1 x hx)
      · split
        · rename_i heq
          exact List.pairwise_cons.2 ⟨fun x hx => by have := hd.1 x hx; simp only; omega, hd.2⟩
        · refine List.pairwise_cons.2 ⟨fun x hx => ?_, ih hd.2⟩
          rcases Mem.mem_write hx with rfl | hx
          · simp only; omega
          · exact hd.1 x hx
  · rcases Mem.mem_write hc with rfl | hc
    · exact ha
    · exact h.2 c hc

/-- Writing consecutive bytes keeps the canonical form. -/
theorem Mem.writeBytes_wf {m : Mem} (a : Word) (bs : List Byte) (h : m.wf) : (m.writeBytes a bs).wf := by
  induction bs generalizing m a with
  | nil => exact h
  | cons b bs ih => exact ih _ (Mem.write_wf b h a.isLt)

/-- `MemWrite` keeps the canonical form. -/
theorem State.memWrite_wf {s : State} (a : Word) (n : Nat) (v : Word) (h : s.mem.wf) : (s.memWrite a n v).mem.wf :=
  Mem.writeBytes_wf _ _ h

/-- Placing an instruction's bytes keeps the canonical form. -/
theorem State.placeBytes_wf {s : State} (bs : List Byte) (h : s.mem.wf) : (s.placeBytes bs).mem.wf :=
  Mem.writeBytes_wf _ _ h

/-- The memory of the reset state has the canonical form. -/
theorem State.reset_mem_wf : State.reset.mem.wf := by decide

@[simp] theorem littleBytes_length (n v : Nat) : (littleBytes n v).length = n := by
  induction n generalizing v with
  | zero => rfl
  | succ n ih => simp [littleBytes, ih]

/-- The bytes of a value have that value, modulo their width. -/
theorem littleValue_littleBytes (n v : Nat) : littleValue (littleBytes n v) = v % 2 ^ (8 * n) := by
  induction n generalizing v with
  | zero => simp [littleBytes, littleValue, Nat.mod_one]
  | succ n ih =>
    simp only [littleBytes, littleValue, ih, BitVec.toNat_ofNat]
    rw [show 8 * (n + 1) = 8 + 8 * n by omega, Nat.pow_add, Nat.mod_mul]

/-- A value of `n` bytes is below `2^(8n)`. -/
theorem littleValue_lt (bs : List Byte) : littleValue bs < 2 ^ (8 * bs.length) := by
  induction bs with
  | nil => simp [littleValue]
  | cons b bs ih =>
    have hb := b.isLt
    simp only [littleValue, List.length_cons, Nat.mul_add, Nat.pow_add]
    omega

theorem littleBytes_littleValue (bs : List Byte) : littleBytes bs.length (littleValue bs) = bs := by
  induction bs with
  | nil => rfl
  | cons b bs ih =>
    have hb := b.isLt
    have h1 : (b.toNat + 256 * littleValue bs) / 256 = littleValue bs := by omega
    have h2 : BitVec.ofNat 8 (b.toNat + 256 * littleValue bs) = b := by
      apply BitVec.eq_of_toNat_eq; rw [BitVec.toNat_ofNat]; omega
    simp only [List.length_cons, littleValue, littleBytes, h1, h2, ih]

/-- Every access takes consecutive addresses (R28). -/
theorem accessAddresses_eq (k a n) : accessAddresses k a n = (List.range n).map (fun i => a + BitVec.ofNat 64 i) := by
  cases k <;> rfl

theorem State.bytesAt_ok (s : State) (k) (as : List Word) (bs : List Byte) (h : List.Forall₂ (fun a b => s.byteAt k a = .ok b) as bs) : s.bytesAt k as = .ok bs := by
  induction h with
  | nil => rfl
  | cons h _ ih => simp [State.bytesAt, h, ih]

/-- Bytes are answered where each of them can be read. -/
theorem State.bytesAt_ok_iff (s : State) (k) (as : List Word) (bs : List Byte) : s.bytesAt k as = .ok bs ↔ List.Forall₂ (fun a b => s.byteAt k a = .ok b) as bs := by
  refine ⟨fun h => ?_, State.bytesAt_ok s k as bs⟩
  induction as generalizing bs with
  | nil => simp [State.bytesAt] at h; subst h; exact .nil
  | cons a as ih =>
    simp only [State.bytesAt] at h
    split at h
    · cases h
    · split at h
      · cases h
      · cases h; exact .cons ‹_› (ih _ ‹_›)

/-- A read depends on PC (for its fault), memory and the platform alone. -/
theorem State.memRead_congr (s s' : State) (k a n) (h1 : s'.pc = s.pc) (h2 : s'.mem = s.mem) (h3 : s'.platform = s.platform) : s'.memRead k a n = s.memRead k a n := by
  have : ∀ a, s'.byteAt k a = s.byteAt k a := by intro a; simp [State.byteAt, h1, h2, h3]
  have : ∀ l, s'.bytesAt k l = s.bytesAt k l := by intro l; induction l with
    | nil => rfl
    | cons a l ih => simp [State.bytesAt, this, ih]
  simp [State.memRead, this]

end Sys2Proof.Machine
end

