-- ==== Sys2Proof/Laws/Decode.lean ====
section
/-!
SUPPORT. The parts of an instruction, and what finding a prefix, classifying and decoding can answer.
-/

namespace Sys2Proof

open Machine

/-- The parts of a built instruction: its head, and the parameter modulo its width. -/
theorem parts_mkInstr (h : Head) (v : Nat) : instrHead (mkInstr h v) = h ∧ instrParam (mkInstr h v) = v % 2 ^ (8 * paramLen h.mode) := by
  obtain ⟨m, op, f⟩ := h
  cases m <;> exact ⟨rfl, by first | rfl | simp [mkInstr, instrParam, instrParts, paramLen, modeRow, Nat.mod_one]⟩

/-- An instruction is built from its parts. -/
theorem mkInstr_parts (i : Instr) : mkInstr (instrHead i) (instrParam i) = i := by
  cases i <;> simp [mkInstr, instrHead, instrParam, instrParts]

/-- A parameter fits its width. -/
theorem instrParam_lt (i : Instr) : instrParam i < 2 ^ (8 * paramLen (instrHead i).mode) := by
  rw [← mkInstr_parts i, (parts_mkInstr _ _).2, (parts_mkInstr _ _).1]; exact Nat.mod_lt _ (by positivity)

/-- A parameter takes at most 8 bytes. -/
theorem paramLen_le (m : Mode) : paramLen m ≤ 8 := by cases m <;> decide

/-- A prefix is found whatever follows the bytes. -/
theorem decodePfx_append {l : List PfxEntry} {bs more rest : List Byte} {f} (h : decodePfx l bs = .ok (f, rest)) : decodePfx l (bs ++ more) = .ok (f, rest ++ more) := by
  induction l with
  | nil => simp [decodePfx] at h ⊢; simp [h]
  | cons e es ih =>
    simp only [decodePfx] at h ⊢
    split
    · rename_i he; simp only [he, if_true] at h; exact ih h
    · rename_i he; simp only [he, if_false] at h
      split at h
      · rename_i hp
        have hp' : e.bytes.isPrefixOf (bs ++ more) = true := by
          rw [List.isPrefixOf_iff_prefix] at hp ⊢; exact hp.trans (List.prefix_append _ _)
        simp only [hp', if_true]
        cases h
        rw [List.isPrefixOf_iff_prefix] at hp
        rw [List.drop_append_of_le_length hp.length_le]
      · split at h
        · cases h
        · rename_i h1 h2
          rw [List.isPrefixOf_iff_prefix] at h1 h2
          have a1 : ¬ (e.bytes.isPrefixOf (bs ++ more)) = true := by
            rw [List.isPrefixOf_iff_prefix]; intro hp
            rcases List.prefix_or_prefix_of_prefix hp (List.prefix_append bs more) with h | h
            · exact h1 h
            · exact h2 h
          have a2 : ¬ ((bs ++ more).isPrefixOf e.bytes) = true := by
            rw [List.isPrefixOf_iff_prefix]; intro hp; exact h2 ((List.prefix_append _ _).trans hp)
          simp only [a1, a2]
          exact ih h

/-- What a found prefix says of the bytes, of its length and of its fields (R46). -/
theorem decodePfx_ok {l : List PfxEntry} {bs rest : List Byte} {f} (h : decodePfx l bs = .ok (f, rest)) :
   rest = bs.drop f.len ∧ f.len ≤ bs.length ∧ f.fieldsOk = true ∧ (f.len = 0 → f = Pfx.absent) := by
  induction l with
  | nil => simp [decodePfx] at h; obtain ⟨rfl, rfl⟩ := h; simp [Pfx.absent, Pfx.fieldsOk]
  | cons e es ih =>
    simp only [decodePfx] at h
    split at h
    · exact ih h
    · split at h
      · rename_i he hp
        cases h
        rw [List.isPrefixOf_iff_prefix] at hp
        have := hp.length_le
        have h0 : e.bytes.length ≠ 0 := by simpa using he
        exact ⟨rfl, this, by simp [Pfx.fieldsOk, he], fun h => absurd h h0⟩
      · split at h
        · cases h
        · exact ih h

/-- A member of a list is at most its maximum. -/
theorem le_foldr_max (l : List Nat) (x) (h : x ∈ l) : x ≤ l.foldr max 0 := by
  induction l with
  | nil => cases h
  | cons y l ih => simp only [List.foldr]; rcases List.mem_cons.1 h with rfl | h; · exact le_max_left _ _
                   · exact (ih h).trans (le_max_right _ _)

/-- A found prefix is at most as long as the longest entry. -/
theorem decodePfx_len_le {l : List PfxEntry} {bs rest : List Byte} {f} (h : decodePfx l bs = .ok (f, rest)) : f.len ≤ (l.map (fun e => e.bytes.length)).foldr max 0 := by
  induction l with
  | nil => simp [decodePfx] at h; simp [← h.1, Pfx.absent]
  | cons e es ih =>
    simp only [decodePfx] at h
    simp only [List.map_cons, List.foldr]
    split at h
    · exact (ih h).trans (le_max_right _ _)
    · split at h
      · cases h; exact le_max_left _ _
      · split at h
        · cases h
        · exact (ih h).trans (le_max_right _ _)

/-- Where the bytes end inside a prefix entry they are shorter than the longest entry. -/
theorem decodePfx_error_length {l : List PfxEntry} {bs : List Byte} {x} (h : decodePfx l bs = .error x) : bs.length < (l.map (fun e => e.bytes.length)).foldr max 0 := by
  induction l with
  | nil => simp [decodePfx] at h
  | cons e es ih =>
    simp only [decodePfx] at h
    simp only [List.map_cons, List.foldr]
    split at h
    · exact (ih h).trans_le (le_max_right _ _)
    · split at h
      · cases h
      · split at h
        · rename_i h1 h2
          rw [List.isPrefixOf_iff_prefix] at h1 h2
          refine lt_of_lt_of_le ?_ (le_max_left _ _)
          rcases h2.length_le.lt_or_eq with h | h
          · exact h
          · exact absurd (h2.eq_of_length h ▸ List.prefix_refl _) h1
        · exact (ih h).trans_le (le_max_right _ _)

/-- Where every prefix entry begins with another byte there is no prefix. -/
theorem decodePfx_absent {l : List PfxEntry} {b : Byte} {tl : List Byte} (h : ∀ e ∈ l, ∃ x xs, e.bytes = x :: xs ∧ x ≠ b) : decodePfx l (b :: tl) = .ok (Pfx.absent, b :: tl) := by
  induction l with
  | nil => rfl
  | cons e es ih =>
    obtain ⟨x, xs, hx, hb⟩ := h e (List.mem_cons_self ..)
    simp only [decodePfx, hx]
    rw [if_neg (by simp), if_neg (by simp [List.isPrefixOf, hb]), if_neg (by simp [List.isPrefixOf, Ne.symm hb])]
    exact ih fun e he => h e (List.mem_cons_of_mem _ he)

/-- The bytes of an entry of prefix-free entries are found as that entry. -/
theorem decodePfx_entry {l : List PfxEntry} {e : PfxEntry} (tl : List Byte) (he : e ∈ l) (hne : e.bytes ≠ [])
   (hp : l.Pairwise (fun x y => x.bytes.isPrefixOf y.bytes = false ∧ y.bytes.isPrefixOf x.bytes = false)) :
   decodePfx l (e.bytes ++ tl) = .ok (⟨e.am, e.off, e.rs, e.bytes.length⟩, tl) := by
  induction l with
  | nil => cases he
  | cons x xs ih =>
    have hx := List.pairwise_cons.1 hp
    rcases List.mem_cons.1 he with rfl | he
    · simp only [decodePfx]
      rw [if_neg hne, if_pos (by simp)]
      simp
    · obtain ⟨h1, h2⟩ := hx.1 e he
      simp only [decodePfx]
      rw [if_neg (by intro h; simp [h] at h1), if_neg, if_neg]
      · exact ih he hx.2
      · rw [List.isPrefixOf_iff_prefix]; intro h
        have := (List.prefix_append e.bytes tl).trans h
        rw [← List.isPrefixOf_iff_prefix] at this; simp [this] at h2
      · rw [List.isPrefixOf_iff_prefix]; intro h
        rcases List.prefix_or_prefix_of_prefix h (List.prefix_append e.bytes tl) with h | h <;> rw [← List.isPrefixOf_iff_prefix] at h
        · simp [h] at h1
        · simp [h] at h2

/-- What an accepted classification says: the mode resolves, and OF is 00 or the mode takes an offset (R97). -/
theorem classify_ok {o : OpcEntry} {f : Pfx} {m} (h : classify o f = .ok m) : resolve o.op o.base o.q f.am f.rs = .ok m ∧ (f.off = .none ∨ (modeRow m).takesOffset = true) := by
  unfold classify at h
  cases hr : resolve o.op o.base o.q f.am f.rs with
  | error e => simp [hr] at h
  | ok a =>
    simp only [hr] at h
    split at h
    · cases h
    · rename_i h2; cases h; refine ⟨rfl, ?_⟩
      by_cases hh : f.off = .none
      · exact .inl hh
      · right; simp [hh] at h2; exact h2

/-- Everything decoding does when it answers an instruction. -/
theorem decode_ok {c : Platform} {bs rest : List Byte} {i} (h : decode c bs = .ok (i, rest)) :
  ∃ f b r o m, decodePfx c.pfx bs = .ok (f, b :: r) ∧ findOpcode c b = some o ∧ classify o f = .ok m ∧ paramLen m ≤ r.length ∧
     i = mkInstr ⟨m, o.op, f⟩ (assemble params.byteOrder (r.take (paramLen m))) ∧ rest = r.drop (paramLen m) := by
  unfold decode at h
  split at h
  · cases h
  · cases h
  · rename_i f b r hp
    split at h
    · cases h
    · rename_i o ho
      split at h
      · cases h
      · rename_i m hm
        split at h
        · cases h
        · rename_i hl
          cases h
          exact ⟨f, b, r, o, m, hp, ho, hm, by omega, rfl, rfl⟩

end Sys2Proof
end

