-- ==== Sys2Proof/Laws/Exec.lean ====
section
/-!
SUPPORT. One lemma per shared operation, saying everything it can do, and the inversion of `exec`.
-/

namespace Sys2Proof.Machine

@[simp] theorem registerSum_eq (n : Nat) (a b : Word) : registerSum n a b = a + b := rfl

@[simp] theorem idxVal_eq (r : Word) : idxVal r = r := by simp [idxVal]

/-- The address an indirect mode or a direct mode starts from (R90, R95). -/
theorem offsetBase_eq (h : Head) (p : Word) (s : State) : offsetBase h p s = p + offsetValue h s := rfl

theorem complete_next {s t : State} {h : Head} {r : Except Fault ModeResult} (hc : complete s h r = .next t) :
    ∃ v, r = .ok v ∧ t = s.deliver h v := by
  cases r with
  | error e => simp [complete, raiseFault] at hc
  | ok v => exact ⟨v, rfl, by simpa [complete] using hc.symm⟩

theorem complete_fault {s : State} {h : Head} {r : Except Fault ModeResult} {e : Fault}
    (hc : complete s h r = .fault e) : r = .error e := by
  cases r with
  | error e' => simpa [complete, raiseFault] using hc
  | ok v => simp [complete] at hc

theorem complete_not_refused (s : State) (h : Head) (r : Except Fault ModeResult) (x : Refusal) :
    complete s h r ≠ .refused x := by
  cases r <;> simp [complete, raiseFault]

@[simp] theorem runDirect_eq (h : Head) (p : Word) (ix : Index) (s : State) :
    runDirect h p ix s = .next (s.deliver h (.ea (directAddress h p ix s))) := rfl

@[simp] theorem runAddress_eq (h : Head) (p : Word) (s : State) :
    runAddress h p s = .next (s.deliver h (.target (p + offsetValue h s))) := rfl

@[simp] theorem runImmediate_eq (h : Head) (v : Nat) (s : State) :
    runImmediate h v s = .next (s.deliver h (.imm v (paramLen h.mode))) := rfl

@[simp] theorem runRelative_eq (h : Head) (o : Word) (s : State) :
    runRelative h o s = .next (s.deliver h (.target (relBase h s + o))) := rfl

theorem runIndirect_ok {h : Head} {p v : Word} {w : Nat} {ix : Index} {s : State}
    (hv : s.memRead .addressRead (pointerLocation h p ix s) w = .ok v) :
    runIndirect h p w ix s = .next (s.deliver h (.ea (indirectAddress v ix s))) := by
  simp [runIndirect, indirectResult, hv, complete]

theorem runIndirect_error {h : Head} {p : Word} {w : Nat} {ix : Index} {s : State} {e : Fault}
    (hv : s.memRead .addressRead (pointerLocation h p ix s) w = .error e) : runIndirect h p w ix s = .fault e := by
  simp [runIndirect, indirectResult, hv, complete, raiseFault]

theorem runIndirect_next {h : Head} {p : Word} {w : Nat} {ix : Index} {s t : State}
    (hr : runIndirect h p w ix s = .next t) :
    ∃ v, s.memRead .addressRead (pointerLocation h p ix s) w = .ok v ∧
      t = s.deliver h (.ea (indirectAddress v ix s)) := by
  cases hv : s.memRead .addressRead (pointerLocation h p ix s) w with
  | error e => rw [runIndirect_error hv] at hr; cases hr
  | ok v => rw [runIndirect_ok hv] at hr; exact ⟨v, rfl, by cases hr; rfl⟩

/-- The state an instruction's result is delivered in: Accumulator mode alone changes it first, where its operation
writes the accumulator (R101). -/
def beforeDelivery (i : Instr) (s : State) : State :=
  match i with
  | .accumulator _ _ => { s with acc := Config.accumulatorResult s.free }
  | _ => s

/-- The result of the addressing mode of an instruction, as one function: what `exec` completes. -/
def modeResult (i : Instr) (s : State) : Except Fault ModeResult :=
  match i with
  | .implied _ _ => .ok .none
  | .accumulator _ _ => .ok .acc
  | .address op f p => .ok (.target (zext64 p + offsetValue ⟨.address, op, f⟩ s))
  | .addressLong op f p => .ok (.target (zext64 p + offsetValue ⟨.addressLong, op, f⟩ s))
  | .addressQuad op f p => .ok (.target (zext64 p + offsetValue ⟨.addressQuad, op, f⟩ s))
  | .immediate _ _ p => .ok (.imm p.toNat 1)
  | .immediate16 _ _ p => .ok (.imm p.toNat 2)
  | .immediate32 _ _ p => .ok (.imm p.toNat 4)
  | .immediate64 _ _ p => .ok (.imm p.toNat 8)
  | .eIndirect _ _ => .ok (.ea s.e)
  | .zeropage op f p => .ok (.ea (directAddress ⟨.zeropage, op, f⟩ (zext64 p) .none s))
  | .zeropageX op f p => .ok (.ea (directAddress ⟨.zeropageX, op, f⟩ (zext64 p) .x s))
  | .zeropageY op f p => .ok (.ea (directAddress ⟨.zeropageY, op, f⟩ (zext64 p) .y s))
  | .absolute16 op f p => .ok (.ea (directAddress ⟨.absolute16, op, f⟩ (zext64 p) .none s))
  | .absolute16X op f p => .ok (.ea (directAddress ⟨.absolute16X, op, f⟩ (zext64 p) .x s))
  | .absolute16Y op f p => .ok (.ea (directAddress ⟨.absolute16Y, op, f⟩ (zext64 p) .y s))
  | .absolute32 op f p => .ok (.ea (directAddress ⟨.absolute32, op, f⟩ (zext64 p) .none s))
  | .absolute32X op f p => .ok (.ea (directAddress ⟨.absolute32X, op, f⟩ (zext64 p) .x s))
  | .absolute32Y op f p => .ok (.ea (directAddress ⟨.absolute32Y, op, f⟩ (zext64 p) .y s))
  | .absolute64 op f p => .ok (.ea (directAddress ⟨.absolute64, op, f⟩ (zext64 p) .none s))
  | .absolute64X op f p => .ok (.ea (directAddress ⟨.absolute64X, op, f⟩ (zext64 p) .x s))
  | .absolute64Y op f p => .ok (.ea (directAddress ⟨.absolute64Y, op, f⟩ (zext64 p) .y s))
  | .zeropageIndirect16 op f p => indirectResult ⟨.zeropageIndirect16, op, f⟩ (zext64 p) 2 .none s
  | .zeropageIndirect16Y op f p => indirectResult ⟨.zeropageIndirect16Y, op, f⟩ (zext64 p) 2 .y s
  | .zeropageXIndirect16 op f p => indirectResult ⟨.zeropageXIndirect16, op, f⟩ (zext64 p) 2 .x s
  | .absoluteIndirect16 op f p => indirectResult ⟨.absoluteIndirect16, op, f⟩ (zext64 p) 2 .none s
  | .absoluteIndirect16Y op f p => indirectResult ⟨.absoluteIndirect16Y, op, f⟩ (zext64 p) 2 .y s
  | .absoluteXIndirect16 op f p => indirectResult ⟨.absoluteXIndirect16, op, f⟩ (zext64 p) 2 .x s
  | .zeropageIndirect32 op f p => indirectResult ⟨.zeropageIndirect32, op, f⟩ (zext64 p) 4 .none s
  | .zeropageIndirect32Y op f p => indirectResult ⟨.zeropageIndirect32Y, op, f⟩ (zext64 p) 4 .y s
  | .zeropageXIndirect32 op f p => indirectResult ⟨.zeropageXIndirect32, op, f⟩ (zext64 p) 4 .x s
  | .absoluteIndirect32 op f p => indirectResult ⟨.absoluteIndirect32, op, f⟩ (zext64 p) 4 .none s
  | .absoluteIndirect32Y op f p => indirectResult ⟨.absoluteIndirect32Y, op, f⟩ (zext64 p) 4 .y s
  | .absoluteXIndirect32 op f p => indirectResult ⟨.absoluteXIndirect32, op, f⟩ (zext64 p) 4 .x s
  | .zeropageIndirect64 op f p => indirectResult ⟨.zeropageIndirect64, op, f⟩ (zext64 p) 8 .none s
  | .zeropageIndirect64Y op f p => indirectResult ⟨.zeropageIndirect64Y, op, f⟩ (zext64 p) 8 .y s
  | .zeropageXIndirect64 op f p => indirectResult ⟨.zeropageXIndirect64, op, f⟩ (zext64 p) 8 .x s
  | .absoluteIndirect64 op f p => indirectResult ⟨.absoluteIndirect64, op, f⟩ (zext64 p) 8 .none s
  | .absoluteIndirect64Y op f p => indirectResult ⟨.absoluteIndirect64Y, op, f⟩ (zext64 p) 8 .y s
  | .absoluteXIndirect64 op f p => indirectResult ⟨.absoluteXIndirect64, op, f⟩ (zext64 p) 8 .x s
  | .relative op f p => .ok (.target (relBase ⟨.relative, op, f⟩ s + sext64 p))
  | .relative16 op f p => .ok (.target (relBase ⟨.relative16, op, f⟩ s + sext64 p))
  | .relative32 op f p => .ok (.target (relBase ⟨.relative32, op, f⟩ s + sext64 p))
  | .relative64 op f p => .ok (.target (relBase ⟨.relative64, op, f⟩ s + sext64 p))
  | .relativeBsr op f p => .ok (.target (relBase ⟨.relativeBsr, op, f⟩ s + sext64 p))
  | .relative16Bsr op f p => .ok (.target (relBase ⟨.relative16Bsr, op, f⟩ s + sext64 p))
  | .relative32Bsr op f p => .ok (.target (relBase ⟨.relative32Bsr, op, f⟩ s + sext64 p))
  | .relative64Bsr op f p => .ok (.target (relBase ⟨.relative64Bsr, op, f⟩ s + sext64 p))

/-- Every meaning is the completion of its mode's result under the instruction's own head. -/
theorem exec_eq_complete (i : Instr) (s : State) :
    exec i s = complete (beforeDelivery i s) (instrHead i) (modeResult i s) := by
  cases i <;> rfl

/-- Everything an instruction does when it answers a next state: it delivers its result under its own head. -/
theorem exec_next {i : Instr} {s t : State} (h : exec i s = .next t) :
    ∃ r, modeResult i s = .ok r ∧ t = (beforeDelivery i s).deliver (instrHead i) r :=
  complete_next (exec_eq_complete i s ▸ h)

/-- An instruction that faults does so with the fault its mode raised. -/
theorem exec_fault {i : Instr} {s : State} {e : Fault} (h : exec i s = .fault e) : modeResult i s = .error e :=
  complete_fault (exec_eq_complete i s ▸ h)

/-- No meaning refuses. -/
theorem exec_not_refused (i : Instr) (s : State) (x : Refusal) : exec i s ≠ .refused x :=
  exec_eq_complete i s ▸ complete_not_refused _ _ _ _

/-- What an instruction does to the fields of the state other than PC and the model's own. -/
theorem beforeDelivery_frame (i : Instr) (s : State) :
    (beforeDelivery i s).pc = s.pc ∧ (beforeDelivery i s).xr = s.xr ∧ (beforeDelivery i s).yr = s.yr ∧
    (beforeDelivery i s).e = s.e ∧ (beforeDelivery i s).sr = s.sr ∧ (beforeDelivery i s).br = s.br ∧
    (beforeDelivery i s).mem = s.mem ∧ (beforeDelivery i s).platform = s.platform ∧
    (beforeDelivery i s).delivered = s.delivered ∧ (beforeDelivery i s).free = s.free := by
  cases i <;> exact ⟨rfl, rfl, rfl, rfl, rfl, rfl, rfl, rfl, rfl, rfl⟩

/-- A change of the state that leaves the mode's result alone and commutes with delivery passes through `exec`. -/
theorem exec_map {i : Instr} {s : State} (g : State → State) (hr : modeResult i (g s) = modeResult i s)
  (hd : ∀ r, (beforeDelivery i (g s)).deliver (instrHead i) r = g ((beforeDelivery i s).deliver (instrHead i) r)) : exec i (g s) = mapNext g (exec i s) := by
  rw [exec_eq_complete, exec_eq_complete, hr]
  cases modeResult i s with
  | ok v => simp only [complete, mapNext, hd]
  | error e => rfl

end Sys2Proof.Machine
end

