-- ==== Sys2Proof/Laws/Fetch.lean ====
section
/-!
SUPPORT. What fetching an instruction's bytes gives, and the inversion of a step.
-/

namespace Sys2Proof.Machine

/-- Byte `k` after the next address is byte `k + 1`. -/
theorem add64_one_add (a : Word) (k : Nat) : add64 a 1 + BitVec.ofNat 64 k = a + BitVec.ofNat 64 (k+1) := by
  rw [BitVec.ofNat_add, BitVec.add_comm (BitVec.ofNat 64 k), ← BitVec.add_assoc]; rfl

/-- A fetched byte is the byte at its address. -/
theorem State.fetchBytes_getElem (s : State) (n a) (k) (hk : k < (s.fetchBytes n a).length) : s.byteAt .fetch (a + BitVec.ofNat 64 k) = .ok (s.fetchBytes n a)[k] := by
  induction n generalizing a k with
  | zero => simp [State.fetchBytes] at hk
  | succ n ih =>
    cases hb : s.byteAt .fetch a with
    | error e => simp [State.fetchBytes, hb] at hk
    | ok b =>
      simp only [State.fetchBytes, hb] at hk ⊢
      cases k with
      | zero => simpa using hb
      | succ k => rw [← add64_one_add]; simpa using ih _ k (by simpa using hk)

/-- Where fewer bytes than asked were fetched, the next one cannot be read. -/
theorem State.fetchBytes_stops (s : State) (n a) (h : (s.fetchBytes n a).length < n) : ∃ e, s.byteAt .fetch (a + BitVec.ofNat 64 (s.fetchBytes n a).length) = .error e := by
  induction n generalizing a with
  | zero => simp at h
  | succ n ih =>
    cases hb : s.byteAt .fetch a with
    | error e => exact ⟨e, by simp [State.fetchBytes, hb]⟩
    | ok b =>
      simp only [State.fetchBytes, hb, List.length_cons] at h ⊢
      rw [← add64_one_add]; exact ih _ (by omega)

/-- Bytes that can all be read stand at the head of what is fetched. -/
theorem State.fetchBytes_append (s : State) (n a) (bs : List Byte) (hn : bs.length ≤ n) (h : ∀ k (hk : k < bs.length), s.byteAt .fetch (a + BitVec.ofNat 64 k) = .ok bs[k]) :
   ∃ more, s.fetchBytes n a = bs ++ more := by
  induction bs generalizing n a with
  | nil => exact ⟨_, rfl⟩
  | cons b bs ih =>
    cases n with
    | zero => simp at hn
    | succ n =>
      have h0 := h 0 (by simp)
      simp at h0
      obtain ⟨more, hm⟩ := ih n (add64 a 1) (by simpa using hn) (fun k hk => by rw [add64_one_add]; exact h (k+1) (by simpa using hk))
      exact ⟨more, by simp only [State.fetchBytes, h0, hm]; rfl⟩

/-- A step answers a next state only by running an instruction it decoded. -/
theorem step_next {s t} (h : step s = .next t) : ∃ i r, decode s.platform s.fetchWindow = .ok (i, r) ∧ exec i s = .next t := by
  unfold step at h
  split at h
  · exact ⟨_, _, ‹_›, h⟩
  · unfold State.fetchFailure at h
    split at h
    · split at h <;> simp [raiseFault] at h
    · simp at h

end Sys2Proof.Machine
end

