-- ==== Sys2Proof/Laws/PerInstr.lean ====
section
/-!
SUPPORT. Statements made per instruction, one lemma per constructor of Instr. EncodedLength: the encoder gives an
instruction prefix length + 1 + ParamLen bytes (R52).
-/

namespace Sys2Proof

open Machine

theorem bytesOf_length (o : ByteOrder) (n v : Nat) : (bytesOf o n v).length = n := by cases o <;> simp [bytesOf]

theorem encodePfx_length {c : Platform} {f : Pfx} {bs : List Byte} (h : encodePfx c f = some bs) :
    bs.length = f.len := by
  unfold encodePfx at h
  split at h
  · split at h <;> simp_all
  · obtain ⟨e, he, rfl⟩ := Option.map_eq_some_iff.1 h
    have := List.find?_some he
    simp_all

/-- What `EncodedLength` says of one instruction. -/
def Laws.EncodedLength.Statement (i : Instr) : Prop :=
  ∀ (c : Platform) (bs : List Byte), encode c i = some bs →
    bs.length = (instrHead i).f.len + 1 + (modeRow (instrHead i).mode).paramLen

theorem Laws.EncodedLength.any (i : Instr) : Laws.EncodedLength.Statement i := by
  intro c bs h
  unfold encode at h
  split at h
  · rename_i hp _
    cases h
    simp [encodePfx_length hp, encodeParam, bytesOf_length, paramLen]
    omega
  · cases h

theorem Laws.EncodedLength.implied (op : OpClass) (f : Pfx) :
    Laws.EncodedLength.Statement (.implied op f) := Laws.EncodedLength.any _

theorem Laws.EncodedLength.accumulator (op : OpClass) (f : Pfx) :
    Laws.EncodedLength.Statement (.accumulator op f) := Laws.EncodedLength.any _

theorem Laws.EncodedLength.address (op : OpClass) (f : Pfx) (p : BitVec 16) :
    Laws.EncodedLength.Statement (.address op f p) := Laws.EncodedLength.any _

theorem Laws.EncodedLength.addressLong (op : OpClass) (f : Pfx) (p : BitVec 32) :
    Laws.EncodedLength.Statement (.addressLong op f p) := Laws.EncodedLength.any _

theorem Laws.EncodedLength.addressQuad (op : OpClass) (f : Pfx) (p : BitVec 64) :
    Laws.EncodedLength.Statement (.addressQuad op f p) := Laws.EncodedLength.any _

theorem Laws.EncodedLength.immediate (op : OpClass) (f : Pfx) (p : BitVec 8) :
    Laws.EncodedLength.Statement (.immediate op f p) := Laws.EncodedLength.any _

theorem Laws.EncodedLength.immediate16 (op : OpClass) (f : Pfx) (p : BitVec 16) :
    Laws.EncodedLength.Statement (.immediate16 op f p) := Laws.EncodedLength.any _

theorem Laws.EncodedLength.immediate32 (op : OpClass) (f : Pfx) (p : BitVec 32) :
    Laws.EncodedLength.Statement (.immediate32 op f p) := Laws.EncodedLength.any _

theorem Laws.EncodedLength.immediate64 (op : OpClass) (f : Pfx) (p : BitVec 64) :
    Laws.EncodedLength.Statement (.immediate64 op f p) := Laws.EncodedLength.any _

theorem Laws.EncodedLength.eIndirect (op : OpClass) (f : Pfx) :
    Laws.EncodedLength.Statement (.eIndirect op f) := Laws.EncodedLength.any _

theorem Laws.EncodedLength.zeropage (op : OpClass) (f : Pfx) (p : BitVec 8) :
    Laws.EncodedLength.Statement (.zeropage op f p) := Laws.EncodedLength.any _

theorem Laws.EncodedLength.zeropageX (op : OpClass) (f : Pfx) (p : BitVec 8) :
    Laws.EncodedLength.Statement (.zeropageX op f p) := Laws.EncodedLength.any _

theorem Laws.EncodedLength.zeropageY (op : OpClass) (f : Pfx) (p : BitVec 8) :
    Laws.EncodedLength.Statement (.zeropageY op f p) := Laws.EncodedLength.any _

theorem Laws.EncodedLength.absolute16 (op : OpClass) (f : Pfx) (p : BitVec 16) :
    Laws.EncodedLength.Statement (.absolute16 op f p) := Laws.EncodedLength.any _

theorem Laws.EncodedLength.absolute16X (op : OpClass) (f : Pfx) (p : BitVec 16) :
    Laws.EncodedLength.Statement (.absolute16X op f p) := Laws.EncodedLength.any _

theorem Laws.EncodedLength.absolute16Y (op : OpClass) (f : Pfx) (p : BitVec 16) :
    Laws.EncodedLength.Statement (.absolute16Y op f p) := Laws.EncodedLength.any _

theorem Laws.EncodedLength.absolute32 (op : OpClass) (f : Pfx) (p : BitVec 32) :
    Laws.EncodedLength.Statement (.absolute32 op f p) := Laws.EncodedLength.any _

theorem Laws.EncodedLength.absolute32X (op : OpClass) (f : Pfx) (p : BitVec 32) :
    Laws.EncodedLength.Statement (.absolute32X op f p) := Laws.EncodedLength.any _

theorem Laws.EncodedLength.absolute32Y (op : OpClass) (f : Pfx) (p : BitVec 32) :
    Laws.EncodedLength.Statement (.absolute32Y op f p) := Laws.EncodedLength.any _

theorem Laws.EncodedLength.absolute64 (op : OpClass) (f : Pfx) (p : BitVec 64) :
    Laws.EncodedLength.Statement (.absolute64 op f p) := Laws.EncodedLength.any _

theorem Laws.EncodedLength.absolute64X (op : OpClass) (f : Pfx) (p : BitVec 64) :
    Laws.EncodedLength.Statement (.absolute64X op f p) := Laws.EncodedLength.any _

theorem Laws.EncodedLength.absolute64Y (op : OpClass) (f : Pfx) (p : BitVec 64) :
    Laws.EncodedLength.Statement (.absolute64Y op f p) := Laws.EncodedLength.any _

theorem Laws.EncodedLength.zeropageIndirect16 (op : OpClass) (f : Pfx) (p : BitVec 8) :
    Laws.EncodedLength.Statement (.zeropageIndirect16 op f p) := Laws.EncodedLength.any _

theorem Laws.EncodedLength.zeropageIndirect16Y (op : OpClass) (f : Pfx) (p : BitVec 8) :
    Laws.EncodedLength.Statement (.zeropageIndirect16Y op f p) := Laws.EncodedLength.any _

theorem Laws.EncodedLength.zeropageXIndirect16 (op : OpClass) (f : Pfx) (p : BitVec 8) :
    Laws.EncodedLength.Statement (.zeropageXIndirect16 op f p) := Laws.EncodedLength.any _

theorem Laws.EncodedLength.absoluteIndirect16 (op : OpClass) (f : Pfx) (p : BitVec 16) :
    Laws.EncodedLength.Statement (.absoluteIndirect16 op f p) := Laws.EncodedLength.any _

theorem Laws.EncodedLength.absoluteIndirect16Y (op : OpClass) (f : Pfx) (p : BitVec 16) :
    Laws.EncodedLength.Statement (.absoluteIndirect16Y op f p) := Laws.EncodedLength.any _

theorem Laws.EncodedLength.absoluteXIndirect16 (op : OpClass) (f : Pfx) (p : BitVec 16) :
    Laws.EncodedLength.Statement (.absoluteXIndirect16 op f p) := Laws.EncodedLength.any _

theorem Laws.EncodedLength.zeropageIndirect32 (op : OpClass) (f : Pfx) (p : BitVec 8) :
    Laws.EncodedLength.Statement (.zeropageIndirect32 op f p) := Laws.EncodedLength.any _

theorem Laws.EncodedLength.zeropageIndirect32Y (op : OpClass) (f : Pfx) (p : BitVec 8) :
    Laws.EncodedLength.Statement (.zeropageIndirect32Y op f p) := Laws.EncodedLength.any _

theorem Laws.EncodedLength.zeropageXIndirect32 (op : OpClass) (f : Pfx) (p : BitVec 8) :
    Laws.EncodedLength.Statement (.zeropageXIndirect32 op f p) := Laws.EncodedLength.any _

theorem Laws.EncodedLength.absoluteIndirect32 (op : OpClass) (f : Pfx) (p : BitVec 16) :
    Laws.EncodedLength.Statement (.absoluteIndirect32 op f p) := Laws.EncodedLength.any _

theorem Laws.EncodedLength.absoluteIndirect32Y (op : OpClass) (f : Pfx) (p : BitVec 16) :
    Laws.EncodedLength.Statement (.absoluteIndirect32Y op f p) := Laws.EncodedLength.any _

theorem Laws.EncodedLength.absoluteXIndirect32 (op : OpClass) (f : Pfx) (p : BitVec 16) :
    Laws.EncodedLength.Statement (.absoluteXIndirect32 op f p) := Laws.EncodedLength.any _

theorem Laws.EncodedLength.zeropageIndirect64 (op : OpClass) (f : Pfx) (p : BitVec 8) :
    Laws.EncodedLength.Statement (.zeropageIndirect64 op f p) := Laws.EncodedLength.any _

theorem Laws.EncodedLength.zeropageIndirect64Y (op : OpClass) (f : Pfx) (p : BitVec 8) :
    Laws.EncodedLength.Statement (.zeropageIndirect64Y op f p) := Laws.EncodedLength.any _

theorem Laws.EncodedLength.zeropageXIndirect64 (op : OpClass) (f : Pfx) (p : BitVec 8) :
    Laws.EncodedLength.Statement (.zeropageXIndirect64 op f p) := Laws.EncodedLength.any _

theorem Laws.EncodedLength.absoluteIndirect64 (op : OpClass) (f : Pfx) (p : BitVec 16) :
    Laws.EncodedLength.Statement (.absoluteIndirect64 op f p) := Laws.EncodedLength.any _

theorem Laws.EncodedLength.absoluteIndirect64Y (op : OpClass) (f : Pfx) (p : BitVec 16) :
    Laws.EncodedLength.Statement (.absoluteIndirect64Y op f p) := Laws.EncodedLength.any _

theorem Laws.EncodedLength.absoluteXIndirect64 (op : OpClass) (f : Pfx) (p : BitVec 16) :
    Laws.EncodedLength.Statement (.absoluteXIndirect64 op f p) := Laws.EncodedLength.any _

theorem Laws.EncodedLength.relative (op : OpClass) (f : Pfx) (p : BitVec 8) :
    Laws.EncodedLength.Statement (.relative op f p) := Laws.EncodedLength.any _

theorem Laws.EncodedLength.relative16 (op : OpClass) (f : Pfx) (p : BitVec 16) :
    Laws.EncodedLength.Statement (.relative16 op f p) := Laws.EncodedLength.any _

theorem Laws.EncodedLength.relative32 (op : OpClass) (f : Pfx) (p : BitVec 32) :
    Laws.EncodedLength.Statement (.relative32 op f p) := Laws.EncodedLength.any _

theorem Laws.EncodedLength.relative64 (op : OpClass) (f : Pfx) (p : BitVec 64) :
    Laws.EncodedLength.Statement (.relative64 op f p) := Laws.EncodedLength.any _

theorem Laws.EncodedLength.relativeBsr (op : OpClass) (f : Pfx) (p : BitVec 8) :
    Laws.EncodedLength.Statement (.relativeBsr op f p) := Laws.EncodedLength.any _

theorem Laws.EncodedLength.relative16Bsr (op : OpClass) (f : Pfx) (p : BitVec 16) :
    Laws.EncodedLength.Statement (.relative16Bsr op f p) := Laws.EncodedLength.any _

theorem Laws.EncodedLength.relative32Bsr (op : OpClass) (f : Pfx) (p : BitVec 32) :
    Laws.EncodedLength.Statement (.relative32Bsr op f p) := Laws.EncodedLength.any _

theorem Laws.EncodedLength.relative64Bsr (op : OpClass) (f : Pfx) (p : BitVec 64) :
    Laws.EncodedLength.Statement (.relative64Bsr op f p) := Laws.EncodedLength.any _

end Sys2Proof
end

