-- ==== Sys2Proof/Tests/Slice0.lean ====
section
/-!
SUPPORT. Tests. Expected values are those of spec/95_test_vectors.md (the id stands in each docstring) or follow from
the numbered rule named. The spec gives prefix bytes and most opcodes no value (N2, N3), so `testPlatform` uses
placeholder bytes for them; a test of decoding shows how bytes are taken apart, not what those bytes are.
-/

namespace Sys2Proof.Tests

open Sys2Proof Sys2Proof.Machine

/-! ### Helpers -/

/-- The opcodes of instance I-6502 and placeholders for the base modes it has none for. -/
def testOpcodes : List OpcEntry :=
  opc6502 ++
  [⟨0xEA#8, .other, .implied, false⟩, ⟨0x0A#8, .data, .accumulator, false⟩,
   ⟨0x5C#8, .jump, .addressUnknown, false⟩, ⟨0x02#8, .data, .eind, false⟩, ⟨0xB6#8, .data, .zpY, false⟩,
   ⟨0xAE#8, .data, .absInd, false⟩, ⟨0x7B#8, .data, .absIndY, false⟩, ⟨0x7C#8, .jump, .absXInd, false⟩,
   ⟨0x6F#8, .data, .absInd, true⟩, ⟨0x7F#8, .data, .absIndY, true⟩, ⟨0x7E#8, .data, .absXInd, true⟩,
   ⟨0x8B#8, .bsr, .rel, false⟩, ⟨0x9B#8, .bsr, .relwide, false⟩]

/-- Placeholder prefix bytes; the last entry takes two bytes. -/
def testPrefixes : List PfxEntry :=
  [⟨[0x42#8], true, .none, .rs00⟩, ⟨[0x12#8], false, .pc, .rs00⟩, ⟨[0x22#8], false, .sr, .rs00⟩,
   ⟨[0x32#8], false, .br, .rs00⟩, ⟨[0x52#8], true, .sr, .rs00⟩, ⟨[0x62#8], true, .br, .rs00⟩,
   ⟨[0x72#8], false, .none, .rs01⟩, ⟨[0x82#8], false, .none, .rs10⟩, ⟨[0x92#8], false, .none, .rs11⟩,
   ⟨[0x0F#8, 0x01#8], true, .pc, .rs11⟩]

def testPlatform : Platform :=
  { opc := testOpcodes, pfx := testPrefixes, pcrelBase := .start, branchBase := .next, memFault := [] }

/-- Memory image MI of 95_test_vectors.md. -/
def memoryImage : Mem :=
  [(0x0, 0xEF#8),
   (0x10, 0x78#8), (0x11, 0x56#8), (0x12, 0x34#8), (0x13, 0x12#8), (0x14, 0xF0#8), (0x15, 0xDE#8), (0x16, 0xBC#8),
   (0x17, 0x9A#8), (0x18, 0x11#8), (0x19, 0x22#8), (0x1A, 0x33#8), (0x1B, 0x44#8),
   (0xFF, 0xCD#8), (0x100, 0xAB#8),
   (0x1010, 0x00#8), (0x1011, 0x80#8),
   (0x2000, 0xFF#8), (0x2001, 0xFF#8), (0x2002, 0xFF#8), (0x2003, 0xFF#8), (0x2004, 0xFF#8), (0x2005, 0xFF#8),
   (0x2006, 0xFF#8), (0x2007, 0xFF#8),
   (0x3000, 0x44#8), (0x3001, 0x33#8), (0x3002, 0x22#8), (0x3003, 0x11#8), (0x3004, 0x88#8), (0x3005, 0x77#8),
   (0x3006, 0x66#8), (0x3007, 0x55#8),
   (0x5020, 0x00#8), (0x5021, 0x80#8), (0x5022, 0x00#8), (0x5023, 0x90#8), (0x5024, 0xA0#8)]

/-- A state with memory MI and the test platform. -/
def mi : State := { State.reset with pc := 0x1000, mem := memoryImage, platform := testPlatform }

/-- MI with XR and YR given. -/
def indexed (x y : Word) : State := { mi with xr := x, yr := y }

/-- MI with SR and BR given. -/
def based (sr br : Word) : State := { mi with sr := sr, br := br }

/-- A state whose RelBase is `a`: PC is `a` and the base is the instruction's start. -/
def branchFrom (a : Word) : State := { mi with pc := a, platform := { testPlatform with branchBase := .start } }

/-- A state with an instruction's bytes placed at PC. -/
def coded (s : State) (pc : Word) (bs : List Byte) : State := { s with pc := pc }.placeBytes bs

/-- Prefix fields of a one-byte prefix. -/
def pf (am : Bool) (off : Offset) (rs : RS) : Pfx := ⟨am, off, rs, 1⟩

/-- No prefix. -/
def nf : Pfx := Pfx.absent

/-- AM = 1 alone. -/
def amf : Pfx := pf true .none .rs00

/-- OF alone. -/
def offf (o : Offset) : Pfx := pf false o .rs00

/-- The result a run handed over last. -/
def handedLast : Result → Option ModeResult
  | .next t => t.delivered.getLast?.map Delivery.result
  | _ => none

/-- What an instruction hands to its operation. -/
def resultOf (i : Instr) (s : State) : Option ModeResult := handedLast (exec i s)

/-- PC after a run. -/
def pcOf : Result → Option Word
  | .next t => some t.pc
  | _ => none

/-- The bytes decode to the instruction with nothing left, and the instruction encodes to the bytes. -/
def bothWays (bs : List Byte) (i : Instr) : Bool :=
  decide (decode testPlatform bs = .ok (i, [])) && decide (encode testPlatform i = some bs) && i.wf

/-! ### Well-formedness: one ill-formed term for each check -/

/-- The op class of Address is jump: `data` is refused by `opOk`. -/
theorem test_wf_op : (instrHead (.address .data nf 0)).opOk = false ∧ (Instr.address .data nf 0).wf = false ∧
    (Instr.address .jump nf 0).wf = true := by decide

/-- Absolute 32bit needs AM = 1: AM = 0 is refused by `amOk`. -/
theorem test_wf_am : (instrHead (.absolute32 .data nf 0)).amOk = false ∧ (Instr.absolute32 .data nf 0).wf = false ∧
    (Instr.absolute32 .data amf 0).wf = true := by decide

/-- Immediate 16bit needs RS = 01: RS = 00 is refused by `rsOk`. -/
theorem test_wf_rs : (instrHead (.immediate16 .data nf 0)).rsOk = false ∧ (Instr.immediate16 .data nf 0).wf = false ∧
    (Instr.immediate16 .data (pf false .none .rs01) 0).wf = true := by decide

/-- OF on Immediate is refused by `ofOk` (V-N14); on Zeropage it is admitted. -/
theorem test_wf_of : (instrHead (.immediate .data (offf .pc) 0x2A)).ofOk = false ∧
    (Instr.immediate .data (offf .pc) 0x2A).wf = false ∧ (Instr.zeropage .data (offf .pc) 0x2A).wf = true := by decide

/-- Fields that are not 0 without a prefix byte are refused by `fieldsOk` (R46). -/
theorem test_wf_fields : Pfx.fieldsOk ⟨true, .none, .rs00, 0⟩ = false ∧
    (Instr.absolute32 .data ⟨true, .none, .rs00, 0⟩ 0).wf = false ∧ nf.fieldsOk = true := by decide

/-! ### Decoding: every constructor by bytes laid out from R41, R42, R49 -/

/-- M1 to M10. -/
theorem test_decode_noAddress :
    bothWays [0xEA#8] (.implied .other nf) = true ∧
    bothWays [0x42#8, 0xEA#8] (.implied .other amf) = true ∧
    bothWays [0x0A#8] (.accumulator .data nf) = true ∧
    bothWays [0x4C#8, 0x34#8, 0x12#8] (.address .jump nf 0x1234) = true ∧
    bothWays [0x42#8, 0x5C#8, 0x78#8, 0x56#8, 0x34#8, 0x12#8] (.addressLong .jump amf 0x12345678) = true ∧
    bothWays [0x42#8, 0x4C#8, 0x78#8, 0x56#8, 0x34#8, 0x12#8, 0xF0#8, 0xDE#8, 0xBC#8, 0x9A#8] (.addressQuad .jump amf 0x9ABCDEF012345678) = true ∧
    bothWays [0xA9#8, 0x2A#8] (.immediate .data nf 0x2A) = true ∧
    bothWays [0x72#8, 0xA9#8, 0x34#8, 0x12#8] (.immediate16 .data (pf false .none .rs01) 0x1234) = true ∧
    bothWays [0x82#8, 0xA9#8, 0x78#8, 0x56#8, 0x34#8, 0x12#8] (.immediate32 .data (pf false .none .rs10) 0x12345678) = true ∧
    bothWays [0x92#8, 0xA9#8, 0x78#8, 0x56#8, 0x34#8, 0x12#8, 0xF0#8, 0xDE#8, 0xBC#8, 0x9A#8] (.immediate64 .data (pf false .none .rs11) 0x9ABCDEF012345678) = true ∧
    bothWays [0x02#8] (.eIndirect .data nf) = true := by
  decide

/-- M11 to M22. -/
theorem test_decode_direct :
    bothWays [0xA5#8, 0x10#8] (.zeropage .data nf 0x10) = true ∧
    bothWays [0xB5#8, 0x10#8] (.zeropageX .data nf 0x10) = true ∧
    bothWays [0xB6#8, 0xF0#8] (.zeropageY .data nf 0xF0) = true ∧
    bothWays [0x22#8, 0xAD#8, 0x34#8, 0x12#8] (.absolute16 .data (offf .sr) 0x1234) = true ∧
    bothWays [0xBD#8, 0x00#8, 0x20#8] (.absolute16X .data nf 0x2000) = true ∧
    bothWays [0xB9#8, 0xFF#8, 0xFF#8] (.absolute16Y .data nf 0xFFFF) = true ∧
    bothWays [0x42#8, 0xA5#8, 0x78#8, 0x56#8, 0x34#8, 0x12#8] (.absolute32 .data amf 0x12345678) = true ∧
    bothWays [0x42#8, 0xB5#8, 0x78#8, 0x56#8, 0x34#8, 0x12#8] (.absolute32X .data amf 0x12345678) = true ∧
    bothWays [0x42#8, 0xB6#8, 0xFF#8, 0xFF#8, 0xFF#8, 0xFF#8] (.absolute32Y .data amf 0xFFFFFFFF) = true ∧
    bothWays [0x62#8, 0xAD#8, 0xF0#8, 0xFF#8, 0xFF#8, 0xFF#8, 0xFF#8, 0xFF#8, 0xFF#8, 0xFF#8] (.absolute64 .data (pf true .br .rs00) 0xFFFFFFFFFFFFFFF0) = true ∧
    bothWays [0x0F#8, 0x01#8, 0xBD#8, 0xFF#8, 0xFF#8, 0xFF#8, 0xFF#8, 0xFF#8, 0xFF#8, 0xFF#8, 0xFF#8] (.absolute64X .data ⟨true, .pc, .rs11, 2⟩ 0xFFFFFFFFFFFFFFFF) = true ∧
    bothWays [0x42#8, 0xB9#8, 0x78#8, 0x56#8, 0x34#8, 0x12#8, 0xF0#8, 0xDE#8, 0xBC#8, 0x9A#8] (.absolute64Y .data amf 0x9ABCDEF012345678) = true := by
  decide

/-- M23 to M28. -/
theorem test_decode_indirectWord :
    bothWays [0xB2#8, 0x10#8] (.zeropageIndirect16 .data nf 0x10) = true ∧
    bothWays [0x12#8, 0xB1#8, 0x12#8] (.zeropageIndirect16Y .data (offf .pc) 0x12) = true ∧
    bothWays [0xA1#8, 0x10#8] (.zeropageXIndirect16 .data nf 0x10) = true ∧
    bothWays [0x6C#8, 0x00#8, 0x30#8] (.absoluteIndirect16 .jump nf 0x3000) = true ∧
    bothWays [0x7B#8, 0x00#8, 0x20#8] (.absoluteIndirect16Y .data nf 0x2000) = true ∧
    bothWays [0x7C#8, 0xFC#8, 0x2F#8] (.absoluteXIndirect16 .jump nf 0x2FFC) = true := by
  decide

/-- M29 to M34. -/
theorem test_decode_indirectLong :
    bothWays [0x42#8, 0xB2#8, 0x10#8] (.zeropageIndirect32 .data amf 0x10) = true ∧
    bothWays [0x42#8, 0xB1#8, 0x10#8] (.zeropageIndirect32Y .data amf 0x10) = true ∧
    bothWays [0x52#8, 0xA1#8, 0x23#8] (.zeropageXIndirect32 .data (pf true .sr .rs00) 0x23) = true ∧
    bothWays [0x42#8, 0x6C#8, 0x00#8, 0x30#8] (.absoluteIndirect32 .jump amf 0x3000) = true ∧
    bothWays [0x42#8, 0x7B#8, 0x00#8, 0x20#8] (.absoluteIndirect32Y .data amf 0x2000) = true ∧
    bothWays [0x42#8, 0x7C#8, 0x00#8, 0x30#8] (.absoluteXIndirect32 .jump amf 0x3000) = true := by
  decide

/-- M35 to M40; mirrored opcodes A3, B3, B7 as in P3. -/
theorem test_decode_indirectQuad :
    bothWays [0x62#8, 0xB7#8, 0x10#8] (.zeropageIndirect64 .data (pf true .br .rs00) 0x10) = true ∧
    bothWays [0x42#8, 0xB3#8, 0x10#8] (.zeropageIndirect64Y .data amf 0x10) = true ∧
    bothWays [0x42#8, 0xA3#8, 0x10#8] (.zeropageXIndirect64 .data amf 0x10) = true ∧
    bothWays [0x42#8, 0x6F#8, 0x00#8, 0x30#8] (.absoluteIndirect64 .data amf 0x3000) = true ∧
    bothWays [0x42#8, 0x7F#8, 0x00#8, 0x20#8] (.absoluteIndirect64Y .data amf 0x2000) = true ∧
    bothWays [0x42#8, 0x7E#8, 0x00#8, 0x10#8] (.absoluteXIndirect64 .data amf 0x1000) = true := by
  decide

/-- M41 to M48. -/
theorem test_decode_relative :
    bothWays [0xD0#8, 0x0E#8] (.relative .branch nf 0x0E) = true ∧
    bothWays [0x72#8, 0xD0#8, 0xE4#8, 0xFF#8] (.relative16 .branch (pf false .none .rs01) 0xFFE4) = true ∧
    bothWays [0x82#8, 0xD0#8, 0xFA#8, 0xFF#8, 0xFF#8, 0xFF#8] (.relative32 .branch (pf false .none .rs10) 0xFFFFFFFA) = true ∧
    bothWays [0x92#8, 0xD0#8, 0xF6#8, 0xFF#8, 0xFF#8, 0xFF#8, 0xFF#8, 0xFF#8, 0xFF#8, 0xFF#8] (.relative64 .branch (pf false .none .rs11) 0xFFFFFFFFFFFFFFF6) = true ∧
    bothWays [0x8B#8, 0x10#8] (.relativeBsr .bsr nf 0x10) = true ∧
    bothWays [0x9B#8, 0xFD#8, 0x0F#8] (.relative16Bsr .bsr nf 0x0FFD) = true ∧
    bothWays [0x42#8, 0x8B#8, 0xFA#8, 0xFF#8, 0xFF#8, 0x7F#8] (.relative32Bsr .bsr amf 0x7FFFFFFA) = true ∧
    bothWays [0x42#8, 0x9B#8, 0xF6#8, 0xFF#8, 0xFF#8, 0xFF#8, 0xFF#8, 0xFF#8, 0xFF#8, 0x7F#8] (.relative64Bsr .bsr amf 0x7FFFFFFFFFFFFFF6) = true := by
  decide

/-- Bytes that are no instruction, by the reason of the refusal (R8 of section 2.8, R46, R54; D13 to D16). -/
theorem test_decode_refusals :
    decode testPlatform [0xB3#8, 0x10#8] = .error .mirroredRowWithoutAm ∧
    decode testPlatform [0x42#8, 0x0A#8] = .error .amOnUnlistedMode ∧
    decode testPlatform [0x42#8, 0x02#8] = .error .amOnUnlistedMode ∧
    decode testPlatform [0x42#8, 0xD0#8, 0x00#8] = .error .amOnBranch ∧
    decode testPlatform [0x72#8, 0x8B#8, 0x00#8] = .error .rsOnBsr ∧
    decode testPlatform [0x12#8, 0xA9#8, 0x2A#8] = .error .ofOnNonAddressMode ∧
    decode testPlatform [0x22#8, 0x02#8] = .error .ofOnNonAddressMode ∧
    decode testPlatform [0x12#8, 0xD0#8, 0x00#8] = .error .ofOnNonAddressMode ∧
    decode testPlatform [0x5C#8, 0x00#8, 0x00#8] = .error .noSuchMode ∧
    decode testPlatform [0xFF#8] = .error (.unmappedOpcode 0xFF) ∧
    decode testPlatform [0x42#8, 0xA5#8, 0x78#8] = .error .truncated ∧
    decode testPlatform [0x0F#8] = .error .truncated := 
  ⟨rfl, rfl, rfl, rfl, rfl, rfl, rfl, rfl, rfl, rfl, rfl, rfl⟩

/-- The words the host is given: an opcode of instance I-6502 in bits 7..0, its parameter above it; a mirrored opcode
without AM is refused (P4), and an opcode byte the spec gives no meaning decodes to nothing. -/
theorem test_decode_words :
    decodeTableWord 24 0x1234AD = some (.absolute16 .data nf 0x1234) ∧
    decodeTableWord 16 0x2AA9 = some (.immediate .data nf 0x2A) ∧
    decodeTableWord 16 0x10B3 = none ∧ decodeTableWord 8 0x00 = none := by
  decide

/-- The mirrored bytes that 95_test_vectors.md writes for instance I-6502: A3, B3, B7. -/
theorem test_mirrorRows :
    mirrorRows opc6502Base = [⟨0xA3#8, .data, .zpXInd, true⟩, ⟨0xB3#8, .data, .zpIndY, true⟩,
      ⟨0xB7#8, .data, .zpInd, true⟩] ∧ mirrorByte 0x6C = none := by
  decide

/-- V-R1 to V-R23 in order, then the last row of section 2.8. -/
theorem test_resolve_vectors :
    resolve .data .zp false false .rs00 = .ok .zeropage ∧
    resolve .data .zp false true .rs00 = .ok .absolute32 ∧
    resolve .data .zp false true .rs11 = .ok .absolute32 ∧
    resolve .data .absY false true .rs00 = .ok .absolute64Y ∧
    resolve .data .zpIndY false false .rs00 = .ok .zeropageIndirect16Y ∧
    resolve .data .zpIndY false true .rs00 = .ok .zeropageIndirect32Y ∧
    resolve .data .zpIndY true true .rs00 = .ok .zeropageIndirect64Y ∧
    resolve .data .zpIndY true false .rs00 = .error .mirroredRowWithoutAm ∧
    resolve .data .absXInd true true .rs00 = .ok .absoluteXIndirect64 ∧
    resolve .data .imm false false .rs00 = .ok .immediate ∧
    resolve .data .imm false true .rs10 = .ok .immediate32 ∧
    resolve .other .implied false true .rs00 = .ok .implied ∧
    resolve .other .accumulator false true .rs00 = .error .amOnUnlistedMode ∧
    resolve .data .eind false false .rs00 = .ok .eIndirect ∧
    resolve .jump .address false false .rs00 = .ok .address ∧
    resolve .jump .address false true .rs00 = .ok .addressQuad ∧
    resolve .branch .rel false false .rs01 = .ok .relative16 ∧
    resolve .branch .rel false false .rs11 = .ok .relative64 ∧
    resolve .branch .rel false true .rs00 = .error .amOnBranch ∧
    resolve .bsr .rel false true .rs00 = .ok .relative32Bsr ∧
    resolve .bsr .relwide false false .rs00 = .ok .relative16Bsr ∧
    resolve .bsr .relwide false true .rs00 = .ok .relative64Bsr ∧
    resolve .bsr .rel false false .rs01 = .error .rsOnBsr ∧
    resolve .data .zp true true .rs00 = .error .noSuchMode :=
  ⟨rfl, rfl, rfl, rfl, rfl, rfl, rfl, rfl, rfl, rfl, rfl, rfl, rfl, rfl, rfl, rfl, rfl, rfl, rfl, rfl, rfl, rfl, rfl, rfl⟩

/-! ### Results: the vectors of section 2, one theorem per instruction -/

/-- V-N1. -/
theorem test_result_implied :
    resultOf (.implied .other nf) mi = some .none := by
  decide

/-- V-N2. -/
theorem test_result_accumulator :
    resultOf (.accumulator .data nf) mi = some .acc := by
  decide

/-- V-N3, V-N4, V-N8. -/
theorem test_result_address :
    resultOf (.address .jump nf 0x1234) mi = some (.target 0x1234) ∧
    resultOf (.address .jump nf 0xFFFF) mi = some (.target 0xFFFF) ∧
    resultOf (.address .jump (offf .br) 0x1234) (based 0 0x2FF0) = some (.target 0x4224) := by
  decide

/-- V-N5, V-N6. -/
theorem test_result_addressLong :
    resultOf (.addressLong .jump amf 0x12345678) mi = some (.target 0x12345678) ∧
    resultOf (.addressLong .jump amf 0x80000000) mi = some (.target 0x80000000) := by
  decide

/-- V-N7. -/
theorem test_result_addressQuad :
    resultOf (.addressQuad .jump amf 0x9ABCDEF012345678) mi = some (.target 0x9ABCDEF012345678) := by
  decide

/-- V-N9, V-N10. -/
theorem test_result_immediate :
    resultOf (.immediate .data nf 0x2A) mi = some (.imm 0x2A 1) ∧
    resultOf (.immediate .data nf 0xFF) mi = some (.imm 0xFF 1) := by
  decide

/-- V-N11. -/
theorem test_result_immediate16 :
    resultOf (.immediate16 .data (pf false .none .rs01) 0x1234) mi = some (.imm 0x1234 2) := by
  decide

/-- V-N12. -/
theorem test_result_immediate32 :
    resultOf (.immediate32 .data (pf false .none .rs10) 0x12345678) mi = some (.imm 0x12345678 4) := by
  decide

/-- V-N13. -/
theorem test_result_immediate64 :
    resultOf (.immediate64 .data (pf false .none .rs11) 0x9ABCDEF012345678) mi = some (.imm 0x9ABCDEF012345678 8) := by
  decide

/-- V-N15. -/
theorem test_result_eIndirect :
    resultOf (.eIndirect .data nf) { State.reset with e := 0x100000010 } = some (.ea 0x100000010) := by
  decide

/-- V-D1. -/
theorem test_result_zeropage :
    resultOf (.zeropage .data nf 0x10) mi = some (.ea 0x10) := by
  decide

/-- V-D2, V-D3, V-D4, V-D5, V-D20. -/
theorem test_result_zeropageX :
    resultOf (.zeropageX .data nf 0x10) (indexed 4 0) = some (.ea 0x14) ∧
    resultOf (.zeropageX .data nf 0xFF) (indexed 1 0) = some (.ea 0x100) ∧
    resultOf (.zeropageX .data nf 0x10) (indexed 0xFFFFFFFFFFFFFFFF 0) = some (.ea 0xF) ∧
    resultOf (.zeropageX .data nf 0x00) (indexed 0xFFFFFFFFFFFFFFFF 0) = some (.ea 0xFFFFFFFFFFFFFFFF) ∧
    resultOf (.zeropageX .data (offf .br) 0x12) { indexed 4 0 with br := 0x200000000 } = some (.ea 0x200000016) := by
  decide

/-- V-D6. -/
theorem test_result_zeropageY :
    resultOf (.zeropageY .data nf 0xF0) (indexed 0 0x20) = some (.ea 0x110) := by
  decide

/-- V-D7, V-D8. -/
theorem test_result_absolute16 :
    resultOf (.absolute16 .data nf 0x1234) mi = some (.ea 0x1234) ∧
    resultOf (.absolute16 .data (offf .sr) 0x1234) (based 0x1FF 0) = some (.ea 0x1433) := by
  decide

/-- V-D9, V-D10. -/
theorem test_result_absolute16X :
    resultOf (.absolute16X .data nf 0x2000) (indexed 0x10 0) = some (.ea 0x2010) ∧
    resultOf (.absolute16X .data nf 0xFFFF) (indexed 1 0) = some (.ea 0x10000) := by
  decide

/-- V-D11. -/
theorem test_result_absolute16Y :
    resultOf (.absolute16Y .data nf 0xFFFF) (indexed 0 2) = some (.ea 0x10001) := by
  decide

/-- V-D12, V-D13. -/
theorem test_result_absolute32 :
    resultOf (.absolute32 .data amf 0x12345678) mi = some (.ea 0x12345678) ∧
    resultOf (.absolute32 .data amf 0x80000000) mi = some (.ea 0x80000000) := by
  decide

/-- V-D14. -/
theorem test_result_absolute32X :
    resultOf (.absolute32X .data amf 0x12345678) (indexed 8 0) = some (.ea 0x12345680) := by
  decide

/-- V-D15. -/
theorem test_result_absolute32Y :
    resultOf (.absolute32Y .data amf 0xFFFFFFFF) (indexed 0 1) = some (.ea 0x100000000) := by
  decide

/-- V-D16, V-D17. -/
theorem test_result_absolute64 :
    resultOf (.absolute64 .data amf 0x9ABCDEF012345678) mi = some (.ea 0x9ABCDEF012345678) ∧
    resultOf (.absolute64 .data (pf true .br .rs00) 0xFFFFFFFFFFFFFFF0) (based 0 0x5000) = some (.ea 0x4FF0) := by
  decide

/-- V-D18. -/
theorem test_result_absolute64X :
    resultOf (.absolute64X .data amf 0xFFFFFFFFFFFFFFFF) (indexed 2 0) = some (.ea 1) := by
  decide

/-- V-D19. -/
theorem test_result_absolute64Y :
    resultOf (.absolute64Y .data amf 0x9ABCDEF012345678) (indexed 0 0x10) = some (.ea 0x9ABCDEF012345688) := by
  decide

/-- V-IW1, V-IW2. -/
theorem test_result_zeropageIndirect16 :
    resultOf (.zeropageIndirect16 .data nf 0x10) mi = some (.ea 0x5678) ∧
    resultOf (.zeropageIndirect16 .data nf 0xFF) mi = some (.ea 0xABCD) := by
  decide

/-- V-IW3, V-IW8. -/
theorem test_result_zeropageIndirect16Y :
    resultOf (.zeropageIndirect16Y .data nf 0x10) (indexed 0 0x10) = some (.ea 0x5688) ∧
    resultOf (.zeropageIndirect16Y .data (offf .pc) 0x12) { indexed 0 1 with pc := 0xFFE } = some (.ea 0x8001) := by
  decide

/-- V-IW4, V-IW9. -/
theorem test_result_zeropageXIndirect16 :
    resultOf (.zeropageXIndirect16 .data nf 0x10) (indexed 4 0) = some (.ea 0xDEF0) ∧
    resultOf (.zeropageXIndirect16 .data nf 0x0E) (indexed 2 0) = some (.ea 0x5678) := by
  decide

/-- V-IW5. -/
theorem test_result_absoluteIndirect16 :
    resultOf (.absoluteIndirect16 .data nf 0x3000) mi = some (.ea 0x3344) := by
  decide

/-- V-IW6. -/
theorem test_result_absoluteIndirect16Y :
    resultOf (.absoluteIndirect16Y .data nf 0x2000) (indexed 0 1) = some (.ea 0x10000) := by
  decide

/-- V-IW7. -/
theorem test_result_absoluteXIndirect16 :
    resultOf (.absoluteXIndirect16 .data nf 0x2FFC) (indexed 4 0) = some (.ea 0x3344) := by
  decide

/-- V-IL1. -/
theorem test_result_zeropageIndirect32 :
    resultOf (.zeropageIndirect32 .data amf 0x10) mi = some (.ea 0x12345678) := by
  decide

/-- V-IL2, V-IL8. -/
theorem test_result_zeropageIndirect32Y :
    resultOf (.zeropageIndirect32Y .data amf 0x10) (indexed 0 2) = some (.ea 0x1234567A) ∧
    resultOf (.zeropageIndirect32Y .data amf 0x14) (indexed 0 0x10) = some (.ea 0x9ABCDF00) := by
  decide

/-- V-IL3, V-IL4. -/
theorem test_result_zeropageXIndirect32 :
    resultOf (.zeropageXIndirect32 .data amf 0x10) (indexed 4 0) = some (.ea 0x9ABCDEF0) ∧
    resultOf (.zeropageXIndirect32 .data (pf true .sr .rs00) 0x23) (based 0x2FDD 0) = some (.ea 0x11223344) := by
  decide

/-- V-IL5. -/
theorem test_result_absoluteIndirect32 :
    resultOf (.absoluteIndirect32 .data amf 0x3000) mi = some (.ea 0x11223344) := by
  decide

/-- V-IL6. -/
theorem test_result_absoluteIndirect32Y :
    resultOf (.absoluteIndirect32Y .data amf 0x2000) (indexed 0 1) = some (.ea 0x100000000) := by
  decide

/-- V-IL7. -/
theorem test_result_absoluteXIndirect32 :
    resultOf (.absoluteXIndirect32 .data amf 0x3000) (indexed 4 0) = some (.ea 0x55667788) := by
  decide

/-- V-IQ1. -/
theorem test_result_zeropageIndirect64 :
    resultOf (.zeropageIndirect64 .data amf 0x10) mi = some (.ea 0x9ABCDEF012345678) := by
  decide

/-- V-IQ2, V-IQ7. -/
theorem test_result_zeropageIndirect64Y :
    resultOf (.zeropageIndirect64Y .data amf 0x10) (indexed 0 8) = some (.ea 0x9ABCDEF012345680) ∧
    resultOf (.zeropageIndirect64Y .data (pf true .br .rs00) 0x10) { based 0 0x2FF0 with yr := 0x100 } = some (.ea 0x5566778811223444) := by
  decide

/-- V-IQ3. -/
theorem test_result_zeropageXIndirect64 :
    resultOf (.zeropageXIndirect64 .data amf 0x10) (indexed 4 0) = some (.ea 0x443322119ABCDEF0) := by
  decide

/-- V-IQ4. -/
theorem test_result_absoluteIndirect64 :
    resultOf (.absoluteIndirect64 .data amf 0x3000) mi = some (.ea 0x5566778811223344) := by
  decide

/-- V-IQ5. -/
theorem test_result_absoluteIndirect64Y :
    resultOf (.absoluteIndirect64Y .data amf 0x2000) (indexed 0 1) = some (.ea 0) := by
  decide

/-- V-IQ6. -/
theorem test_result_absoluteXIndirect64 :
    resultOf (.absoluteXIndirect64 .data amf 0x1000) (indexed 0x2000 0) = some (.ea 0x5566778811223344) := by
  decide

/-- V-B1, V-B2, V-B3, V-B4, V-B5. -/
theorem test_result_relative :
    resultOf (.relative .branch nf 0xFE) (branchFrom 0x1002) = some (.target 0x1000) ∧
    resultOf (.relative .branch nf 0x7F) (branchFrom 0x1002) = some (.target 0x1081) ∧
    resultOf (.relative .branch nf 0x80) (branchFrom 0x1002) = some (.target 0xF82) ∧
    resultOf (.relative .branch nf 0x00) (branchFrom 0x1002) = some (.target 0x1002) ∧
    resultOf (.relative .branch nf 0xFF) (branchFrom 0) = some (.target 0xFFFFFFFFFFFFFFFF) := by
  decide

/-- V-B6, V-B7, V-B8. -/
theorem test_result_relative16 :
    resultOf (.relative16 .branch (pf false .none .rs01) 0x0100) (branchFrom 0x1004) = some (.target 0x1104) ∧
    resultOf (.relative16 .branch (pf false .none .rs01) 0x7FFF) (branchFrom 0x1004) = some (.target 0x9003) ∧
    resultOf (.relative16 .branch (pf false .none .rs01) 0x8000) (branchFrom 0x1004) = some (.target 0xFFFFFFFFFFFF9004) := by
  decide

/-- V-B9, V-B10, V-B11. -/
theorem test_result_relative32 :
    resultOf (.relative32 .branch (pf false .none .rs10) 0xFFFFFFFA) (branchFrom 0x100000006) = some (.target 0x100000000) ∧
    resultOf (.relative32 .branch (pf false .none .rs10) 0x7FFFFFFF) (branchFrom 0x1006) = some (.target 0x80001005) ∧
    resultOf (.relative32 .branch (pf false .none .rs10) 0x80000000) (branchFrom 0x1006) = some (.target 0xFFFFFFFF80001006) := by
  decide

/-- V-B12. -/
theorem test_result_relative64 :
    resultOf (.relative64 .branch (pf false .none .rs11) 0xFFFFFFFFFFFFFFF6) (branchFrom 0x100A) = some (.target 0x1000) := by
  decide

/-- V-B13. -/
theorem test_result_relativeBsr :
    resultOf (.relativeBsr .bsr nf 0x10) (branchFrom 0x2002) = some (.target 0x2012) := by
  decide

/-- V-B14. -/
theorem test_result_relative16Bsr :
    resultOf (.relative16Bsr .bsr nf 0x0FFD) (branchFrom 0x2003) = some (.target 0x3000) := by
  decide

/-- V-B15. -/
theorem test_result_relative32Bsr :
    resultOf (.relative32Bsr .bsr amf 0x7FFFFFFA) (branchFrom 0x2006) = some (.target 0x80002000) := by
  decide

/-- V-B16. -/
theorem test_result_relative64Bsr :
    resultOf (.relative64Bsr .bsr amf 0x7FFFFFFFFFFFFFF6) (branchFrom 0x200A) = some (.target 0x8000000000002000) := by
  decide

/-! ### Steps from the listings of section 3 -/

/-- P1 at $1004, `<AM> A5 78 56 34 12`: EA($12345678), PC $100A. -/
theorem test_step_P1_am : let r := step (coded (indexed 4 0x10) 0x1004 [0x42#8, 0xA5#8, 0x78#8, 0x56#8, 0x34#8, 0x12#8])
    pcOf r = some 0x100A ∧ handedLast r = some (.ea 0x12345678) := by
  decide

/-- P1 at $1014, `<OF=11> B5 12`: EA($200000016), PC $1017. -/
theorem test_step_P1_base : let r := step (coded { indexed 4 0 with br := 0x200000000 } 0x1014 [0x32#8, 0xB5#8, 0x12#8])
    pcOf r = some 0x1017 ∧ handedLast r = some (.ea 0x200000016) := by
  decide

/-- P2 at $4000, `4C 10 40`: Target($4010), PC $4010. -/
theorem test_step_P2_jump : let r := step (coded mi 0x4000 [0x4C#8, 0x10#8, 0x40#8])
    pcOf r = some 0x4010 ∧ handedLast r = some (.target 0x4010) := by
  decide

/-- P2 at $4020, `<RS=01> D0 E4 FF`: Target($4008) (RelBase is the next instruction). -/
theorem test_step_P2_branch :
    handedLast (step (coded mi 0x4020 [0x72#8, 0xD0#8, 0xE4#8, 0xFF#8])) = some (.target 0x4008) := by
  decide

/-- P2 at $4008, `6C 00 30`: the word at $3000 is the target, PC $3344. -/
theorem test_step_P2_indirect : let r := step (coded mi 0x4008 [0x6C#8, 0x00#8, 0x30#8])
    pcOf r = some 0x3344 ∧ handedLast r = some (.ea 0x3344) := by
  decide

/-- P2 at $3344, `<AM> <BSR.rel> FA FF FF 7F`: Target($80003344), PC there. -/
theorem test_step_P2_bsr : let r := step (coded mi 0x3344 [0x42#8, 0x8B#8, 0xFA#8, 0xFF#8, 0xFF#8, 0x7F#8])
    pcOf r = some 0x80003344 ∧ handedLast r = some (.target 0x80003344) := by
  decide

/-- P3 at $5008, `<AM,OF=10> A1 23`: EA($55667788), PC $500B. -/
theorem test_step_P3_stack : let r := step (coded { indexed 4 0 with sr := 0x2FDD } 0x5008 [0x52#8, 0xA1#8, 0x23#8])
    pcOf r = some 0x500B ∧ handedLast r = some (.ea 0x55667788) := by
  decide

/-- P3 at $500B, `<AM,OF=11> B7 10`: EA($5566778811223344), PC $500E. -/
theorem test_step_P3_quad : let r := step (coded (based 0 0x2FF0) 0x500B [0x62#8, 0xB7#8, 0x10#8])
    pcOf r = some 0x500E ∧ handedLast r = some (.ea 0x5566778811223344) := by
  decide

/-- P3 at $500E, `<OF=01> B1 12`, with PCv at the instruction's start, its opcode, its parameter, the next one. -/
theorem test_step_P3_pc : let r := fun b => handedLast (step
      (coded { indexed 0 0x10 with platform := { testPlatform with pcrelBase := b } } 0x500E [0x12#8, 0xB1#8, 0x12#8]))
    r .start = some (.ea 0x8010) ∧ r .opcode = some (.ea 0x90) ∧ r .param = some (.ea 0x9010) ∧
    r .next = some (.ea 0xA0A0) := by
  decide

/-- P4 at $6002, `B3 10`: a mirrored opcode without AM is refused. -/
theorem test_step_P4_refused : step (coded mi 0x6002 [0xB3#8, 0x10#8]) =
    .refused (.undecodable 0x6002 .mirroredRowWithoutAm) := by
  rfl

/-- From reset with nothing placed the first step faults: the byte at PC has no value. -/
theorem test_step_reset : step State.reset = .fault (.noValue 0 0 .fetch) := by
  rfl

/-- A word placed where the next step fetches is the instruction that step runs. -/
theorem test_step_withFetchWord : let r := step (State.reset.withFetchWord 24 0x40104C)
    pcOf r = some 0x4010 ∧ handedLast r = some (.target 0x4010) := by
  decide

/-- A MemFault on the second byte of an address read: the instruction gives no result (R40, R153). -/
theorem test_memFault :
    exec (.zeropageIndirect16 .data nf 0x10)
      { mi with platform := { testPlatform with memFault := [⟨0x11, 0x11, .addressRead⟩] } } =
    .fault (.memFault 0x1000 0x11 .addressRead) := by
  rfl

/-- The seven assembler examples of the source (section 1.1): `$1234`, `P,$1234`, `(P,$12),Y`, `S,$1234`, `[S,$23,X]`,
`B,$1234`, `B,$12,X`. -/
theorem test_operandForm_examples :
    operandForm .absolute16 .none = [.abs] ∧ operandForm .absolute16 .pc = [.pPre, .abs] ∧
    operandForm .zeropageIndirect16Y .pc = [.open_, .pPre, .zp, .close, .commaY] ∧
    operandForm .absolute16 .sr = [.sPre, .abs] ∧
    operandForm .zeropageXIndirect32 .sr = [.openSq, .sPre, .zp, .commaX, .closeSq] ∧
    operandForm .absolute16 .br = [.bPre, .abs] ∧ operandForm .zeropageX .br = [.bPre, .zp, .commaX] := by
  decide

/-! ### Witnesses: states and operands that meet the hypotheses of each statement that has some -/

/-- One read that succeeds for each clause; op classes data and jump in turn. -/
theorem test_witness_IndirectWordModesComplete :
    (OpClass.data = .data ∨ OpClass.data = .jump) ∧ (OpClass.jump = .data ∨ OpClass.jump = .jump) ∧
    (mi : State).memRead .addressRead
      ((0x10#8).setWidth 64 + offsetValue ⟨.zeropageIndirect16, .data, nf⟩ mi) 2 = .ok 0x5678 ∧
    ((indexed 0 0x10) : State).memRead .addressRead
      ((0xFF#8).setWidth 64 + offsetValue ⟨.zeropageIndirect16Y, .jump, nf⟩ (indexed 0 0x10)) 2 = .ok 0xABCD ∧
    ((indexed 4 0) : State).memRead .addressRead
      ((0x10#8).setWidth 64 + offsetValue ⟨.zeropageXIndirect16, .data, nf⟩ (indexed 4 0) + (indexed 4 0).xr) 2 = .ok 0xDEF0 ∧
    (mi : State).memRead .addressRead
      ((0x3000#16).setWidth 64 + offsetValue ⟨.absoluteIndirect16, .jump, nf⟩ mi) 2 = .ok 0x3344 ∧
    ((indexed 0 1) : State).memRead .addressRead
      ((0x2000#16).setWidth 64 + offsetValue ⟨.absoluteIndirect16Y, .data, nf⟩ (indexed 0 1)) 2 = .ok 0xFFFF ∧
    ((indexed 4 0) : State).memRead .addressRead
      ((0x2FFC#16).setWidth 64 + offsetValue ⟨.absoluteXIndirect16, .jump, nf⟩ (indexed 4 0) + (indexed 4 0).xr) 2 = .ok 0x3344 := by
  decide

/-- One read that succeeds for each clause; op classes data and jump in turn. -/
theorem test_witness_IndirectLongModesComplete :
    (OpClass.data = .data ∨ OpClass.data = .jump) ∧ (OpClass.jump = .data ∨ OpClass.jump = .jump) ∧
    (mi : State).memRead .addressRead
      ((0x10#8).setWidth 64 + offsetValue ⟨.zeropageIndirect32, .data, amf⟩ mi) 4 = .ok 0x12345678 ∧
    ((indexed 0 2) : State).memRead .addressRead
      ((0x14#8).setWidth 64 + offsetValue ⟨.zeropageIndirect32Y, .jump, amf⟩ (indexed 0 2)) 4 = .ok 0x9ABCDEF0 ∧
    ((indexed 4 0) : State).memRead .addressRead
      ((0x10#8).setWidth 64 + offsetValue ⟨.zeropageXIndirect32, .data, amf⟩ (indexed 4 0) + (indexed 4 0).xr) 4 = .ok 0x9ABCDEF0 ∧
    (mi : State).memRead .addressRead
      ((0x3000#16).setWidth 64 + offsetValue ⟨.absoluteIndirect32, .jump, amf⟩ mi) 4 = .ok 0x11223344 ∧
    ((indexed 0 1) : State).memRead .addressRead
      ((0x2000#16).setWidth 64 + offsetValue ⟨.absoluteIndirect32Y, .data, amf⟩ (indexed 0 1)) 4 = .ok 0xFFFFFFFF ∧
    ((indexed 4 0) : State).memRead .addressRead
      ((0x3000#16).setWidth 64 + offsetValue ⟨.absoluteXIndirect32, .jump, amf⟩ (indexed 4 0) + (indexed 4 0).xr) 4 = .ok 0x55667788 := by
  decide

/-- One read that succeeds for each clause; op classes data and jump in turn. -/
theorem test_witness_IndirectQuadModesComplete :
    (OpClass.data = .data ∨ OpClass.data = .jump) ∧ (OpClass.jump = .data ∨ OpClass.jump = .jump) ∧
    (mi : State).memRead .addressRead
      ((0x10#8).setWidth 64 + offsetValue ⟨.zeropageIndirect64, .data, amf⟩ mi) 8 = .ok 0x9ABCDEF012345678 ∧
    ((indexed 0 8) : State).memRead .addressRead
      ((0x10#8).setWidth 64 + offsetValue ⟨.zeropageIndirect64Y, .jump, amf⟩ (indexed 0 8)) 8 = .ok 0x9ABCDEF012345678 ∧
    ((indexed 4 0) : State).memRead .addressRead
      ((0x10#8).setWidth 64 + offsetValue ⟨.zeropageXIndirect64, .data, amf⟩ (indexed 4 0) + (indexed 4 0).xr) 8 = .ok 0x443322119ABCDEF0 ∧
    (mi : State).memRead .addressRead
      ((0x3000#16).setWidth 64 + offsetValue ⟨.absoluteIndirect64, .jump, amf⟩ mi) 8 = .ok 0x5566778811223344 ∧
    ((indexed 0 1) : State).memRead .addressRead
      ((0x2000#16).setWidth 64 + offsetValue ⟨.absoluteIndirect64Y, .data, amf⟩ (indexed 0 1)) 8 = .ok 0xFFFFFFFFFFFFFFFF ∧
    ((indexed 0x2000 0) : State).memRead .addressRead
      ((0x1000#16).setWidth 64 + offsetValue ⟨.absoluteXIndirect64, .jump, amf⟩ (indexed 0x2000 0) + (indexed 0x2000 0).xr) 8 = .ok 0x5566778811223344 := by
  decide

/-- One read that fails for each clause. -/
theorem test_witness_IndirectModesFault :
    mi.memRead .addressRead ((0x20#8).setWidth 64 + offsetValue ⟨.zeropageIndirect16, .data, nf⟩ mi) 2 =
      .error (.noValue 0x1000 0x20 .addressRead) ∧
    mi.memRead .addressRead ((0x20#8).setWidth 64 + offsetValue ⟨.zeropageIndirect16Y, .data, nf⟩ mi) 2 =
      .error (.noValue 0x1000 0x20 .addressRead) ∧
    mi.memRead .addressRead ((0x20#8).setWidth 64 + offsetValue ⟨.zeropageXIndirect16, .data, nf⟩ mi + mi.xr) 2 =
      .error (.noValue 0x1000 0x20 .addressRead) ∧
    mi.memRead .addressRead ((0xFFFF#16).setWidth 64 + offsetValue ⟨.absoluteIndirect16, .data, nf⟩ mi) 2 =
      .error (.noValue 0x1000 0xFFFF .addressRead) ∧
    mi.memRead .addressRead ((0xFFFF#16).setWidth 64 + offsetValue ⟨.absoluteIndirect16Y, .data, nf⟩ mi) 2 =
      .error (.noValue 0x1000 0xFFFF .addressRead) ∧
    mi.memRead .addressRead ((0xFFFF#16).setWidth 64 + offsetValue ⟨.absoluteXIndirect16, .data, nf⟩ mi + mi.xr) 2 =
      .error (.noValue 0x1000 0xFFFF .addressRead) ∧
    mi.memRead .addressRead ((0x20#8).setWidth 64 + offsetValue ⟨.zeropageIndirect32, .data, nf⟩ mi) 4 =
      .error (.noValue 0x1000 0x20 .addressRead) ∧
    mi.memRead .addressRead ((0x20#8).setWidth 64 + offsetValue ⟨.zeropageIndirect32Y, .data, nf⟩ mi) 4 =
      .error (.noValue 0x1000 0x20 .addressRead) ∧
    mi.memRead .addressRead ((0x20#8).setWidth 64 + offsetValue ⟨.zeropageXIndirect32, .data, nf⟩ mi + mi.xr) 4 =
      .error (.noValue 0x1000 0x20 .addressRead) ∧
    mi.memRead .addressRead ((0xFFFF#16).setWidth 64 + offsetValue ⟨.absoluteIndirect32, .data, nf⟩ mi) 4 =
      .error (.noValue 0x1000 0xFFFF .addressRead) ∧
    mi.memRead .addressRead ((0xFFFF#16).setWidth 64 + offsetValue ⟨.absoluteIndirect32Y, .data, nf⟩ mi) 4 =
      .error (.noValue 0x1000 0xFFFF .addressRead) ∧
    mi.memRead .addressRead ((0xFFFF#16).setWidth 64 + offsetValue ⟨.absoluteXIndirect32, .data, nf⟩ mi + mi.xr) 4 =
      .error (.noValue 0x1000 0xFFFF .addressRead) ∧
    mi.memRead .addressRead ((0x20#8).setWidth 64 + offsetValue ⟨.zeropageIndirect64, .data, nf⟩ mi) 8 =
      .error (.noValue 0x1000 0x20 .addressRead) ∧
    mi.memRead .addressRead ((0x20#8).setWidth 64 + offsetValue ⟨.zeropageIndirect64Y, .data, nf⟩ mi) 8 =
      .error (.noValue 0x1000 0x20 .addressRead) ∧
    mi.memRead .addressRead ((0x20#8).setWidth 64 + offsetValue ⟨.zeropageXIndirect64, .data, nf⟩ mi + mi.xr) 8 =
      .error (.noValue 0x1000 0x20 .addressRead) ∧
    mi.memRead .addressRead ((0xFFFF#16).setWidth 64 + offsetValue ⟨.absoluteIndirect64, .data, nf⟩ mi) 8 =
      .error (.noValue 0x1000 0xFFFF .addressRead) ∧
    mi.memRead .addressRead ((0xFFFF#16).setWidth 64 + offsetValue ⟨.absoluteIndirect64Y, .data, nf⟩ mi) 8 =
      .error (.noValue 0x1000 0xFFFF .addressRead) ∧
    mi.memRead .addressRead ((0xFFFF#16).setWidth 64 + offsetValue ⟨.absoluteXIndirect64, .data, nf⟩ mi + mi.xr) 8 =
      .error (.noValue 0x1000 0xFFFF .addressRead) := 
  ⟨rfl, rfl, rfl, rfl, rfl, rfl, rfl, rfl, rfl, rfl, rfl, rfl, rfl, rfl, rfl, rfl, rfl, rfl⟩

/-- A byte that faults, and one that does not and has a value. -/
theorem test_witness_MemFaultHook :
    memFaultAt ({ mi with platform := { testPlatform with memFault := [⟨0x10, 0x10, .fetch⟩] } } : State).platform 0x10 .fetch = true ∧
    memFaultAt ({ mi with platform := { testPlatform with memFault := [⟨0x10, 0x10, .fetch⟩] } } : State).platform 0x10 .addressRead = false ∧
    mi.mem.read (0x10 : Word).toNat = some 0x78#8 := by
  decide

/-- All eight bytes at $3000; and two bytes at the top of the address space, the second at address 0. -/
theorem test_witness_MemReadValue :
    (8 ≤ 8 ∧ ∀ i < 8, mi.byteAt .addressRead (0x3000 + BitVec.ofNat 64 i) =
      .ok ([0x44#8, 0x33#8, 0x22#8, 0x11#8, 0x88#8, 0x77#8, 0x66#8, 0x55#8].getD i 0)) ∧
    (2 ≤ 8 ∧ ∀ i < 2, { mi with mem := mi.mem.write 0xFFFFFFFFFFFFFFFF 0x12 }.byteAt .addressRead
      (0xFFFFFFFFFFFFFFFF + BitVec.ofNat 64 i) = .ok ([0x12#8, 0xEF#8].getD i 0)) := by
  decide

/-- A word, a long and a quad read, and the two premises on reads that succeed. -/
theorem test_witness_AddressReadByteOrder :
    (∀ i < 2, mi.byteAt .addressRead (0x10 + BitVec.ofNat 64 i) = .ok ([0x78#8, 0x56#8].getD i 0)) ∧
    (∀ i < 4, mi.byteAt .addressRead (0x10 + BitVec.ofNat 64 i) = .ok ([0x78#8, 0x56#8, 0x34#8, 0x12#8].getD i 0)) ∧
    (∀ i < 8, mi.byteAt .addressRead (0x10 + BitVec.ofNat 64 i) =
      .ok ([0x78#8, 0x56#8, 0x34#8, 0x12#8, 0xF0#8, 0xDE#8, 0xBC#8, 0x9A#8].getD i 0)) ∧
    mi.memRead .addressRead 0x10 8 = .ok 0x9ABCDEF012345678 ∧ mi.memRead .addressRead 0x10 4 = .ok 0x12345678 := by
  decide

/-- Both sides hold of a read whose second byte has no value. -/
theorem test_witness_MemReadFault :
    mi.memRead .addressRead 0x100 2 = .error (.noValue 0x1000 0x101 .addressRead) ∧
    1 < 2 ∧ mi.byteAt .addressRead (0x100 + BitVec.ofNat 64 1) = .error (.noValue 0x1000 0x101 .addressRead) ∧
    mi.byteAt .addressRead (0x100 + BitVec.ofNat 64 0) = .ok 0xAB := ⟨rfl, by decide, rfl, rfl⟩

/-- The bytes at $FF and $100, OF = 00. -/
theorem test_witness_PointerBytesAreConsecutive :
    nf.off = .none ∧ mi.byteAt .addressRead 0xFF = .ok 0xCD ∧ mi.byteAt .addressRead 0x100 = .ok 0xAB := by
  decide

/-- Eight bytes across the top of the address space, none of which faults. -/
theorem test_witness_MemReadAfterMemWrite :
    8 ≤ 8 ∧ ∀ i < 8, memFaultAt mi.platform (0xFFFFFFFFFFFFFFFC + BitVec.ofNat 64 i) .addressRead = false := by
  decide

/-- The address after a two-byte write. -/
theorem test_witness_MemWriteFrame :
    ∀ i < 2, (0x12 : Word) ≠ 0x10 + BitVec.ofNat 64 i := by
  decide

/-- `(P,$12),Y` with PCv $FFE (V-IW8) and `[S,$23,X]` (section 1.1). -/
theorem test_witness_OffsetPrefixExamples :
    ({ mi with pc := 0xFFE } : State).memRead .addressRead
      (pcValue ⟨.zeropageIndirect16Y, .data, ⟨false, .pc, .rs00, 1⟩⟩ { mi with pc := 0xFFE } + 0x12) 2 = .ok 0x8000 ∧
    ({ indexed 4 0 with sr := 0x2FDD } : State).memRead .addressRead (0x2FDD + 0x23 + 4) 4 = .ok 0x55667788 ∧
    nf.off = .none ∧ (offf .pc).off = .pc ∧ (offf .sr).off = .sr ∧ (offf .br).off = .br := by
  decide

/-- Each of the five settings. -/
theorem test_witness_PcValueCandidates :
    ({ mi with platform := { testPlatform with pcrelBase := .start } } : State).platform.pcrelBase = .start ∧
    ({ mi with platform := { testPlatform with pcrelBase := .opcode } } : State).platform.pcrelBase = .opcode ∧
    ({ mi with platform := { testPlatform with pcrelBase := .param } } : State).platform.pcrelBase = .param ∧
    ({ mi with platform := { testPlatform with pcrelBase := .next } } : State).platform.pcrelBase = .next ∧
    ({ mi with platform := { testPlatform with pcrelBase := .unstated } } : State).platform.pcrelBase = .unstated := by
  decide

/-- Each of the five settings. -/
theorem test_witness_RelBaseCandidates :
    ({ mi with platform := { testPlatform with branchBase := .start } } : State).platform.branchBase = .start ∧
    ({ mi with platform := { testPlatform with branchBase := .opcode } } : State).platform.branchBase = .opcode ∧
    ({ mi with platform := { testPlatform with branchBase := .param } } : State).platform.branchBase = .param ∧
    ({ mi with platform := { testPlatform with branchBase := .next } } : State).platform.branchBase = .next ∧
    ({ mi with platform := { testPlatform with branchBase := .unstated } } : State).platform.branchBase = .unstated := by
  decide

/-- OF = 11 with X = 1; OF = 10 with SR = 1. -/
theorem test_witness_OffsetSumsDoNotWrapInside :
    ((offf .br).off = .br ∧ (indexed 1 0).xr = 1) ∧ (offf .sr).off = .sr ∧ (based 1 0).sr = 1 := by
  decide

/-- The ends of the range of 8 bits and of 64 bits. -/
theorem test_witness_RelativeOffsetRanges :
    (-2 ^ (8 - 1) ≤ (-128 : Int) ∧ (-128 : Int) ≤ 2 ^ (8 - 1) - 1) ∧ (127 : Int) ≤ 2 ^ (8 - 1) - 1 ∧
    -2 ^ (64 - 1) ≤ (-9223372036854775808 : Int) ∧ (9223372036854775807 : Int) ≤ 2 ^ (64 - 1) - 1 := by
  decide

/-- Instructions of four families that answer a next state. -/
theorem test_witness_NoModeWritesMemory :
    exec (.zeropage .data nf 0x10) mi = .next (mi.handed 0x1002 .data .rs00 (.ea 0x10)) ∧
    exec (.absoluteIndirect16 .jump nf 0x3000) mi = .next (mi.handed 0x3344 .jump .rs00 (.ea 0x3344)) ∧
    exec (.relativeBsr .bsr nf 0x10) (branchFrom 0x2002) =
      .next ((branchFrom 0x2002).handed 0x2012 .bsr .rs00 (.target 0x2012)) ∧
    (∃ t, exec (.accumulator .data nf) mi = .next t) := ⟨rfl, rfl, rfl, _, rfl⟩

/-- The same, and one whose mode is not Accumulator. -/
theorem test_witness_RegisterFrame :
    exec (.zeropage .data nf 0x10) mi = .next (mi.handed 0x1002 .data .rs00 (.ea 0x10)) ∧
    (instrHead (.zeropage .data nf 0x10)).mode ≠ .accumulator := ⟨rfl, by decide⟩

/-- The first instruction of P1. -/
theorem test_witness_StepFrame :
    let s := coded mi 0x1000 [0xA5#8, 0x10#8]
    step s = .next (s.handed 0x1002 .data .rs00 (.ea 0x10)) := rfl

/-- A direct, an indirect, an Implied and an Accumulator instruction of class data. -/
theorem test_witness_DataInstructionsAdvance :
    ((instrHead (.zeropage .data nf 0x10)).op = .data ∧ (Instr.zeropage .data nf 0x10).wf = true ∧
      exec (.zeropage .data nf 0x10) mi = .next (mi.handed 0x1002 .data .rs00 (.ea 0x10))) ∧
    ((Instr.absolute64Y .data amf 0).wf = true ∧ ∃ t, exec (.absolute64Y .data amf 0) mi = .next t) ∧
    ((Instr.zeropageIndirect16 .data nf 0x10).wf = true ∧
      exec (.zeropageIndirect16 .data nf 0x10) mi = .next (mi.handed 0x1002 .data .rs00 (.ea 0x5678))) ∧
    ((Instr.implied .data nf).wf = true ∧ ∃ t, exec (.implied .data nf) mi = .next t) ∧
    (Instr.accumulator .data nf).wf = true ∧ ∃ t, exec (.accumulator .data nf) mi = .next t := 
  ⟨⟨rfl, by decide, rfl⟩, ⟨by decide, _, rfl⟩, ⟨by decide, rfl⟩, ⟨by decide, _, rfl⟩, by decide, _, rfl⟩

/-- A mode without X (indexed by Y) and one without Y (indexed by X). -/
theorem test_witness_IndexRegistersReadOnlyWhereWritten :
    Tok.commaX ∉ operandForm (instrHead (.zeropageIndirect16Y .data nf 0)).mode .none ∧
    Tok.commaY ∉ operandForm (instrHead (.zeropageXIndirect16 .data nf 0)).mode .none := by
  decide

/-- One instruction for each premise. -/
theorem test_witness_OtherRegistersReadOnlyWhereSelected :
    (instrHead (.zeropage .data nf 0)).mode ≠ .eIndirect ∧ (instrHead (.zeropage .data (offf .br) 0)).f.off ≠ .sr ∧
    (instrHead (.zeropage .data (offf .sr) 0)).f.off ≠ .br ∧ (instrHead (.implied .data nf)).mode ≠ .accumulator := by
  decide

/-- The bases nearest to the indirect ones. -/
theorem test_witness_OnlyIndirectModesReadMemory :
    indirectBase (modeRow (instrHead (.eIndirect .data nf)).mode).base = false ∧
    indirectBase (modeRow (instrHead (.zeropageX .data nf 0)).mode).base = false := by
  decide

/-- A resolution, a direct and an indirect run. -/
theorem test_witness_RsDoesNotAffectAddresses :
    ((modeRow .absolute32).rs = .any ∧ resolve .data .zp false true .rs00 = .ok .absolute32) ∧
    ((modeRow .zeropage).rs = .any ∧ exec (mkInstr ⟨.zeropage, .data, nf⟩ 0x10) mi =
      .next (mi.handed 0x1002 .data .rs00 (.ea 0x10))) ∧
    (modeRow .zeropageIndirect16).rs = .any ∧ exec (mkInstr ⟨.zeropageIndirect16, .data, nf⟩ 0x10) mi =
      .next (mi.handed 0x1002 .data .rs00 (.ea 0x5678)) := ⟨by decide, ⟨rfl, rfl⟩, rfl, rfl⟩

/-- Both sides hold of the last row of the table. -/
theorem test_witness_ResolveMatchesTable :
    resolve .bsr .relwide false true .rs00 = .ok .relative64Bsr ∧ (modeRow .relative64Bsr).base = .relwide ∧
    (modeRow .relative64Bsr).q = false ∧ (modeRow .relative64Bsr).op.admits .bsr = true ∧
    (modeRow .relative64Bsr).am.admits true = true ∧ (modeRow .relative64Bsr).rs.admits .rs00 = true := by
  decide

/-- A premise on the bases: the first and the last. -/
theorem test_witness_AmTranslationOfDirectModes :
    Base.zp ∈ [Base.zp, .zpX, .zpY, .abs, .absX, .absY] ∧ Base.absY ∈ [Base.zp, .zpX, .zpY, .abs, .absX, .absY] := by
  decide

/-- Both op classes; the six reads are those of test_witness_IndirectLongModesComplete. -/
theorem test_witness_AmTranslationOfIndirectModes :
    (OpClass.data = .data ∨ OpClass.data = .jump) ∧ (OpClass.jump = .data ∨ OpClass.jump = .jump) ∧
    mi.memRead .addressRead ((0x10#8).setWidth 64 + offsetValue ⟨.zeropageIndirect32, .jump, amf⟩ mi) 4 =
      .ok 0x12345678 := by
  decide

/-- Both op classes; the six reads are those of test_witness_IndirectQuadModesComplete. -/
theorem test_witness_AmTranslationOfMirroredModes :
    (OpClass.data = .data ∨ OpClass.data = .jump) ∧ (OpClass.jump = .data ∨ OpClass.jump = .jump) ∧
    mi.memRead .addressRead ((0x10#8).setWidth 64 + offsetValue ⟨.zeropageIndirect64, .jump, amf⟩ mi) 8 =
      .ok 0x9ABCDEF012345678 := by
  decide

/-- Both op classes, and every indirect base. -/
theorem test_witness_MirroredRowsNeedAm :
    (OpClass.data = .data ∨ OpClass.data = .jump) ∧ (OpClass.jump = .data ∨ OpClass.jump = .jump) ∧
    ∀ b ∈ [Base.zpInd, .zpIndY, .zpXInd, .absInd, .absIndY, .absXInd], indirectBase b = true := by
  decide

/-- Every RS other than 00. -/
theorem test_witness_RelativeWidthSelection :
    ∀ r ∈ [RS.rs01, .rs10, .rs11], r ≠ .rs00 := by
  decide

/-- A premise for each of (a) to (e), and for the two combinations that are accepted. -/
theorem test_witness_ReservedCombinationsRefused :
    (indirectBase .zpIndY = true ∧ nf.am = false) ∧ amf.am = true ∧
    (resolve .data .imm false (offf .pc).am (offf .pc).rs = .ok .immediate ∧ (offf .pc).off ≠ .none) ∧
    (pf false .none .rs01).rs ≠ .rs00 ∧
    (decodePfx testPlatform.pfx [0x42#8, 0xFF#8] = .ok (amf, 0xFF#8 :: []) ∧
      ∀ o ∈ testPlatform.opc, o.byte ≠ 0xFF#8) ∧
    amf.am = true ∧ amf.off = .none := by
  decide

/-- A mode that takes an offset and one that does not. -/
theorem test_witness_OffsetApplicability :
    resolve .data .zp false (offf .pc).am (offf .pc).rs = .ok .zeropage ∧
    resolve .data .imm false (offf .pc).am (offf .pc).rs = .ok .immediate := by
  decide

/-- Zeropage under OF = 00 and OF = 11. -/
theorem test_witness_OffsetChangesNoLength :
    classify ⟨0xA5#8, .data, .zp, false⟩ nf = .ok .zeropage ∧
    classify ⟨0xA5#8, .data, .zp, false⟩ { nf with off := .br } = .ok .zeropage := by
  decide

/-- An instruction with a prefix that the test platform encodes. -/
theorem test_witness_ParameterLengths :
    encode testPlatform (.absolute32 .data amf 0x12345678) = some [0x42#8, 0xA5#8, 0x78#8, 0x56#8, 0x34#8, 0x12#8] := by
  decide

/-- The first and the last mode that take an offset. -/
theorem test_witness_AddressPrefixStandsBeforeAddress :
    (modeRow .address).takesOffset = true ∧ (modeRow .absoluteXIndirect64).takesOffset = true := by
  decide

/-- Bytes without a prefix. -/
theorem test_witness_NoPrefixMeansZeroFields :
    decode testPlatform [0xA5#8, 0x10#8] = .ok (.zeropage .data nf 0x10, []) ∧
    (instrHead (.zeropage .data nf 0x10)).f.len = 0 := by
  decide

/-- An instruction with a two-byte prefix, followed by another byte. -/
theorem test_witness_DecodeIsSound :
    decode testPlatform [0x0F#8, 0x01#8, 0xB2#8, 0x10#8, 0xFF#8] =
      .ok (.zeropageIndirect32 .data ⟨true, .pc, .rs11, 2⟩ 0x10, [0xFF#8]) := by
  decide

/-- The same instruction, with nothing after it and with another byte. -/
theorem test_witness_DecodeReadsOnlyItsBytes :
    decode testPlatform [0x0F#8, 0x01#8, 0xB2#8, 0x10#8] =
      .ok (.zeropageIndirect32 .data ⟨true, .pc, .rs11, 2⟩ 0x10, []) := by
  decide

/-- The test platform is unambiguous and gives bytes to a well-formed instruction with the longest parameter; the
decode tests above show the same of every constructor. -/
theorem test_witness_DecodeOfEncode :
    testPlatform.unambiguous = true ∧ (Instr.absolute64X .data ⟨true, .pc, .rs11, 2⟩ 0xFFFFFFFFFFFFFFFF).wf = true ∧
    encode testPlatform (.absolute64X .data ⟨true, .pc, .rs11, 2⟩ 0xFFFFFFFFFFFFFFFF) =
      some [0x0F#8, 0x01#8, 0xBD#8, 0xFF#8, 0xFF#8, 0xFF#8, 0xFF#8, 0xFF#8, 0xFF#8, 0xFF#8, 0xFF#8] := by
  decide

/-- P1 at $1004: the bytes decode and each can be fetched. -/
theorem test_witness_StepRunsDecodedInstruction :
    let bs := [0x42#8, 0xA5#8, 0x78#8, 0x56#8, 0x34#8, 0x12#8]
    let s := coded mi 0x1004 bs
    decode s.platform bs = .ok (.absolute32 .data amf 0x12345678, []) ∧
    ∀ k, (hk : k < bs.length) → s.byteAt .fetch (s.pc + BitVec.ofNat 64 k) = .ok bs[k] := by
  decide

/-- An instruction with a parameter and one without. -/
theorem test_witness_ParameterIsMemRead :
    decode (coded mi 0x4000 [0x4C#8, 0x10#8, 0x40#8]).platform (coded mi 0x4000 [0x4C#8, 0x10#8, 0x40#8]).fetchWindow =
      .ok (.address .jump nf 0x4010, []) ∧ 0 < paramLen .address ∧
    decode (coded mi 0x4000 [0xEA#8]).platform (coded mi 0x4000 [0xEA#8]).fetchWindow = .ok (.implied .other nf, []) ∧
    paramLen .implied = 0 := by
  decide

/-- P4 at $6002. -/
theorem test_witness_StepRefusesUndecodable :
    decode (coded mi 0x6002 [0xB3#8, 0x10#8]).platform (coded mi 0x6002 [0xB3#8, 0x10#8]).fetchWindow =
      .error .mirroredRowWithoutAm ∧ Reject.mirroredRowWithoutAm ≠ .truncated := ⟨rfl, by decide⟩

/-- Nothing at PC; and a parameter whose second byte has no value. -/
theorem test_witness_StepFaultsWhereFetchStops :
    decode State.reset.platform State.reset.fetchWindow = .error .truncated ∧
    decode (coded mi 0x4000 [0x4C#8, 0x10#8]).platform (coded mi 0x4000 [0x4C#8, 0x10#8]).fetchWindow =
      .error .truncated := ⟨rfl, rfl⟩

/-- The first instruction of P1 from a state that meets the invariant. -/
theorem test_witness_StepKeepsInvariant :
    let s := coded mi 0x1000 [0xA5#8, 0x10#8]
    (s.mem.wf ∧ ∀ d ∈ s.delivered, d.admissible = true) ∧ step s = .next (s.handed 0x1002 .data .rs00 (.ea 0x10)) := ⟨by decide, rfl⟩

/-- A delivery that is not admissible: the invariant rules something out. -/
theorem test_witness_Inv :
    Delivery.admissible ⟨.data, .rs00, .imm 0x100 1⟩ = false ∧ Delivery.admissible ⟨.data, .rs00, .target 0⟩ = false ∧
    Delivery.admissible ⟨.bsr, .rs01, .target 0⟩ = false := by
  decide

end Sys2Proof.Tests
end

section
/-!
PROOF. O48, the place of the address prefix in an operand form (R56). The forms of the modes that take OF are read off the
columns of the mode table: the brackets off base, Q and AM, the address off the parameter length, the index off the base.
-/

namespace Sys2Proof.Machine

/-- The brackets an indirect form opens with: `(` reads 16 bits, `[` 32, `[[` 64 (R55). -/
def ModeRow.openingBrackets (r : ModeRow) : List Tok :=
  if indirectBase r.base then
    if r.q then [.openSq, .openSq] else if r.am = .exactly true then [.openSq] else [.open_]
  else []

/-- The brackets that close what `openingBrackets` opens. -/
def ModeRow.closingBrackets (r : ModeRow) : List Tok :=
  if indirectBase r.base then
    if r.q then [.closeSq, .closeSq] else if r.am = .exactly true then [.closeSq] else [.close]
  else []

/-- The address of a form that takes OF, by the width of its parameter (R55). -/
def ModeRow.addressTok (r : ModeRow) : Tok :=
  match r.paramLen with
  | 1 => .zp
  | 2 => .abs
  | 4 => .long
  | _ => .quad

/-- The index `,X`, which stands inside the brackets of an indirect form. -/
def ModeRow.indexX (r : ModeRow) : List Tok :=
  match r.base with
  | .zpX | .absX | .zpXInd | .absXInd => [.commaX]
  | _ => []

/-- The index `,Y`, which stands after the brackets of an indirect form. -/
def ModeRow.indexY (r : ModeRow) : List Tok :=
  match r.base with
  | .zpY | .absY | .zpIndY | .absIndY => [.commaY]
  | _ => []

/-- What stands after the address: `,X`, the closing brackets, `,Y`, each where the row has it. -/
def ModeRow.afterAddress (r : ModeRow) : List Tok :=
  r.indexX ++ r.closingBrackets ++ r.indexY

theorem ModeRow.addressTok_cases (r : ModeRow) :
    r.addressTok = .zp ∨ r.addressTok = .abs ∨ r.addressTok = .long ∨ r.addressTok = .quad := by
  unfold ModeRow.addressTok
  split <;> simp

/-- The form of a mode that takes OF, from its row: opening brackets, prefix, address, and what follows the address. -/
theorem operandForm_of_takesOffset {m : Mode} (h : (modeRow m).takesOffset = true) (off : Offset) :
    operandForm m off = (modeRow m).openingBrackets ++ offsetToks off ++
      (modeRow m).addressTok :: (modeRow m).afterAddress := by
  cases m
  case implied | accumulator | immediate | immediate16 | immediate32 | immediate64 | eIndirect | relative | relative16
      | relative32 | relative64 | relativeBsr | relative16Bsr | relative32Bsr | relative64Bsr => cases h
  all_goals rfl

/-- Under OF = 00 the same form stands without a prefix. -/
theorem operandForm_none_of_takesOffset {m : Mode} (h : (modeRow m).takesOffset = true) :
    operandForm m .none = (modeRow m).openingBrackets ++ (modeRow m).addressTok :: (modeRow m).afterAddress := by
  simpa [offsetToks] using operandForm_of_takesOffset h .none

/-- Settles O48: the parts of the form that `operandForm_of_takesOffset` names are the ones asked for. -/
theorem addressPrefixStandsBeforeAddress : Obligations.AddressPrefixStandsBeforeAddress := by
  refine ⟨⟨rfl, rfl, rfl, rfl⟩, fun m off h => ?_⟩
  exact ⟨(modeRow m).openingBrackets, (modeRow m).afterAddress, (modeRow m).addressTok,
    (modeRow m).addressTok_cases, operandForm_of_takesOffset h off, operandForm_none_of_takesOffset h, rfl⟩

end Sys2Proof.Machine
end

section
/-!
PROOF. O39, O40 and O41, what AM = 1 does to the indirect bases and that it does nothing to immediates and Implied (R68 to
R81). Every indirect base goes through `resolveIndirect` and `runIndirect`: `resolve_indirect_of_am`
resolves it, and one lemma per index (none, X before the read, Y after it) says what its run hands over.
-/

namespace Sys2Proof.Machine

section
variable (h : Head) (p : Word) (s : State)

@[simp] theorem pointerLocation_none : pointerLocation h p .none s = p + offsetValue h s := rfl

@[simp] theorem pointerLocation_x : pointerLocation h p .x s = p + offsetValue h s + s.xr := by
  simp [pointerLocation, offsetBase_eq]

@[simp] theorem pointerLocation_y : pointerLocation h p .y s = p + offsetValue h s := rfl
end

section
variable (v : Word) (s : State)

@[simp] theorem indirectAddress_none : indirectAddress v .none s = v := rfl

@[simp] theorem indirectAddress_x : indirectAddress v .x s = v := rfl

@[simp] theorem indirectAddress_y : indirectAddress v .y s = v + s.yr := by simp [indirectAddress, add64]
end

section
variable {h : Head} {p v : Word} {w : Nat} {s : State}

/-- An indirect mode whose address can be read hands over the effective address formed from it. -/
theorem runIndirect_handed {ix : Index} (hv : s.memRead .addressRead (pointerLocation h p ix s) w = .ok v) :
    ∃ pc, runIndirect h p w ix s = .next (s.handed pc h.op h.f.rs (.ea (indirectAddress v ix s))) :=
  ⟨_, by rw [runIndirect_ok hv, State.deliver_eq_handed]⟩

/-- Without an index the address read is the effective address. -/
theorem runIndirect_none_handed (hv : s.memRead .addressRead (p + offsetValue h s) w = .ok v) :
    ∃ pc, runIndirect h p w .none s = .next (s.handed pc h.op h.f.rs (.ea v)) := by
  simpa using runIndirect_handed (ix := .none) (by simpa using hv)

/-- X is added to the location before the address is read (R123). -/
theorem runIndirect_x_handed (hv : s.memRead .addressRead (p + offsetValue h s + s.xr) w = .ok v) :
    ∃ pc, runIndirect h p w .x s = .next (s.handed pc h.op h.f.rs (.ea v)) := by
  simpa using runIndirect_handed (ix := .x) (by simpa using hv)

/-- Y is added to the address that was read (R123). -/
theorem runIndirect_y_handed (hv : s.memRead .addressRead (p + offsetValue h s) w = .ok v) :
    ∃ pc, runIndirect h p w .y s = .next (s.handed pc h.op h.f.rs (.ea (v + s.yr))) := by
  simpa using runIndirect_handed (ix := .y) (by simpa using hv)
end

/-- The six indirect bases resolve by `resolveIndirect`. -/
theorem resolve_of_indirectBase {base : Base} (hb : indirectBase base = true) (op : OpClass) (q am : Bool) (rs : RS) :
    resolve op base q am rs = resolveIndirect op base q am := by
  cases base
  case zpInd | zpIndY | zpXInd | absInd | absIndY | absXInd => rfl
  all_goals cases hb

/-- Under AM = 1 a data or jump operation on an indirect base gets the mode `indirectMode` lists, mirrored or not. -/
theorem resolve_indirect_of_am {op : OpClass} {base : Base} {q : Bool} {rs : RS} {m : Mode}
    (hop : op = .data ∨ op = .jump) (hb : indirectBase base = true) (hm : indirectMode base q true = some m) :
    resolve op base q true rs = .ok m := by
  rw [resolve_of_indirectBase hb]
  rcases hop with rfl | rfl <;> simp [resolveIndirect, hm]

/-- Settles O39: each base resolves by `resolve_indirect_of_am`, and its 4-byte form runs by the lemma for its index. -/
theorem amTranslationOfIndirectModes : Obligations.AmTranslationOfIndirectModes := by
  intro op rs f s v hop
  refine ⟨?zp, ?zpY, ?zpX, ?abs, ?absY, ?absX⟩
  case zp | abs => exact ⟨resolve_indirect_of_am hop rfl rfl, rfl, rfl, fun _ => runIndirect_none_handed⟩
  case zpY | absY => exact ⟨resolve_indirect_of_am hop rfl rfl, rfl, rfl, fun _ => runIndirect_y_handed⟩
  case zpX | absX => exact ⟨resolve_indirect_of_am hop rfl rfl, rfl, rfl, fun _ => runIndirect_x_handed⟩

/-- Settles O40: as O39, for the 8-byte forms the mirrored rows resolve to. -/
theorem amTranslationOfMirroredModes : Obligations.AmTranslationOfMirroredModes := by
  intro op rs f s v hop
  refine ⟨?zp, ?zpY, ?zpX, ?abs, ?absY, ?absX⟩
  case zp | abs => exact ⟨resolve_indirect_of_am hop rfl rfl, rfl, rfl, fun _ => runIndirect_none_handed⟩
  case zpY | absY => exact ⟨resolve_indirect_of_am hop rfl rfl, rfl, rfl, fun _ => runIndirect_y_handed⟩
  case zpX | absX => exact ⟨resolve_indirect_of_am hop rfl rfl, rfl, rfl, fun _ => runIndirect_x_handed⟩

/-- An immediate reads its mode's length and its parameter, and hands RS over: AM stands in none of them (R80). -/
theorem runImmediate_am (m : Mode) (op : OpClass) (f : Pfx) (am : Bool) (v : Nat) (s : State) :
    runImmediate ⟨m, op, { f with am := am }⟩ v s = runImmediate ⟨m, op, f⟩ v s := rfl

/-- Settles O41: neither resolution looks at AM, and the four immediates run by `runImmediate_am`. -/
theorem amUnchangedOnImmediateAndImplied : Obligations.AmUnchangedOnImmediateAndImplied := by
  refine ⟨fun _ => ⟨rfl, rfl, rfl, rfl⟩, fun op _ _ => ?implied, fun op f am s => ⟨?byte, ?word, ?long, ?quad⟩⟩
  case implied => rfl
  all_goals exact fun _ => runImmediate_am _ op f am _ s

end Sys2Proof.Machine
end

section
/-!
PROOF. O24, the four OF values and the source's seven examples (R91 to R94). One lemma per OF value says what it adds,
and one where the address then starts, in the source's order (register, then parameter); one per direct shape says
what its run hands over.
-/

namespace Sys2Proof.Machine

section
variable {h : Head}

theorem offsetValue_of_none (hoff : h.f.off = .none) (s : State) : offsetValue h s = 0 := by
  simp [offsetValue, hoff]

theorem offsetValue_of_pc (hoff : h.f.off = .pc) (s : State) : offsetValue h s = pcValue h s := by
  simp [offsetValue, hoff]

theorem offsetValue_of_sr (hoff : h.f.off = .sr) (s : State) : offsetValue h s = s.sr := by
  simp [offsetValue, hoff]

theorem offsetValue_of_br (hoff : h.f.off = .br) (s : State) : offsetValue h s = s.br := by
  simp [offsetValue, hoff]

theorem offsetBase_of_none (hoff : h.f.off = .none) (p : Word) (s : State) : offsetBase h p s = p := by
  simp [offsetBase_eq, offsetValue_of_none hoff]

theorem offsetBase_of_pc (hoff : h.f.off = .pc) (p : Word) (s : State) : offsetBase h p s = pcValue h s + p := by
  rw [offsetBase_eq, offsetValue_of_pc hoff, BitVec.add_comm]

theorem offsetBase_of_sr (hoff : h.f.off = .sr) (p : Word) (s : State) : offsetBase h p s = s.sr + p := by
  rw [offsetBase_eq, offsetValue_of_sr hoff, BitVec.add_comm]

theorem offsetBase_of_br (hoff : h.f.off = .br) (p : Word) (s : State) : offsetBase h p s = s.br + p := by
  rw [offsetBase_eq, offsetValue_of_br hoff, BitVec.add_comm]
end

section
variable {h : Head} {p b : Word} {s : State}

/-- A direct mode without an index hands over the sum of parameter and offset register (R110). -/
theorem runDirect_none_handed (hb : offsetBase h p s = b) :
    ∃ pc, runDirect h p .none s = .next (s.handed pc h.op h.f.rs (.ea b)) :=
  ⟨_, by rw [runDirect_eq, State.deliver_eq_handed, directAddress, hb]⟩

/-- A direct mode indexed with X adds the whole of X to that sum (R110). -/
theorem runDirect_x_handed (hb : offsetBase h p s = b) :
    ∃ pc, runDirect h p .x s = .next (s.handed pc h.op h.f.rs (.ea (b + s.xr))) :=
  ⟨_, by rw [runDirect_eq, State.deliver_eq_handed, directAddress, registerSum_eq, idxVal_eq, hb]⟩
end

/-- Settles O24: the OF values by the lemmas on `offsetValue`; each example by the lemma for its shape (direct or
indirect, and its index) with the `offsetBase` lemma for its OF. -/
theorem offsetPrefixExamples : Obligations.OffsetPrefixExamples := by
  refine ⟨rfl, rfl, rfl, rfl, fun h p s => ⟨?none, ?pc, ?sr, ?br⟩, fun s rs am len =>
    ⟨?abs, ?pcAbs, ?pcZpIndY, ?srAbs, ?srZpXInd, ?brAbs, ?brZpX⟩⟩
  case none => exact fun hoff => ⟨offsetValue_of_none hoff s, offsetBase_of_none hoff p s⟩
  case pc => exact fun hoff => offsetValue_of_pc hoff s
  case sr => exact fun hoff => offsetValue_of_sr hoff s
  case br => exact fun hoff => offsetValue_of_br hoff s
  case abs => exact runDirect_none_handed (offsetBase_of_none rfl _ s)
  case pcAbs => exact runDirect_none_handed (offsetBase_of_pc rfl _ s)
  case pcZpIndY =>
    intro v hv
    exact runIndirect_y_handed (by rwa [← offsetBase_eq, offsetBase_of_pc rfl])
  case srAbs => exact runDirect_none_handed (offsetBase_of_sr rfl _ s)
  case srZpXInd =>
    intro v hv
    exact runIndirect_x_handed (by rwa [← offsetBase_eq, offsetBase_of_sr rfl])
  case brAbs => exact runDirect_none_handed (offsetBase_of_br rfl _ s)
  case brZpX => exact runDirect_x_handed (offsetBase_of_br rfl _ s)

end Sys2Proof.Machine
end

section
/-!
PROOF. O37, `resolve` against the opcode table (R61). `ModeRow.selects` is the table's side; each of the resolvers
`resolve` calls answers only modes whose row selects, and the row of every mode leads back to it.
-/

namespace Sys2Proof.Machine

section
variable {op : OpClass} {am b : Bool} {rs r : RS}

@[simp] theorem OpReq.admits_data : OpReq.data.admits op = true ↔ op = .data := by simp [OpReq.admits]

@[simp] theorem OpReq.admits_jump : OpReq.jump.admits op = true ↔ op = .jump := by simp [OpReq.admits]

@[simp] theorem OpReq.admits_branch : OpReq.branch.admits op = true ↔ op = .branch := by simp [OpReq.admits]

@[simp] theorem OpReq.admits_bsr : OpReq.bsr.admits op = true ↔ op = .bsr := by simp [OpReq.admits]

@[simp] theorem OpReq.admits_dataOrJump : OpReq.dataOrJump.admits op = true ↔ op = .data ∨ op = .jump := by
  simp [OpReq.admits]

@[simp] theorem AmReq.admits_exactly : (AmReq.exactly b).admits am = true ↔ am = b := by simp [AmReq.admits]

@[simp] theorem RsReq.admits_exactly : (RsReq.exactly r).admits rs = true ↔ rs = r := by simp [RsReq.admits]
end

/-- The columns of a row that `resolve` reads admit these fields (R61). -/
def ModeRow.selects (r : ModeRow) (op : OpClass) (base : Base) (q am : Bool) (rs : RS) : Prop :=
  r.base = base ∧ r.q = q ∧ r.op.admits op = true ∧ r.am.admits am = true ∧ r.rs.admits rs = true

section
variable {op : OpClass} {base : Base} {q am : Bool} {rs : RS} {m m0 m1 : Mode}

theorem resolveDirect_ok (h : resolveDirect op q am m0 m1 = .ok m) :
    op = .data ∧ q = false ∧ m = if am then m1 else m0 := by
  unfold resolveDirect at h
  split at h <;> simp_all

theorem resolveIndirect_ok (h : resolveIndirect op base q am = .ok m) :
    (op = .data ∨ op = .jump) ∧ indirectMode base q am = some m := by
  unfold resolveIndirect at h
  split at h
  · cases h
  · split at h
    · split at h <;> simp_all
    · cases h

/-- An indirect mode is listed under the base, Q and AM of its row, and its row asks for no RS. -/
theorem indirectMode_row (h : indirectMode base q am = some m) (hop : op = .data ∨ op = .jump) :
    (modeRow m).selects op base q am rs := by
  unfold indirectMode at h
  split at h <;> cases h <;> rcases hop with rfl | rfl <;> exact ⟨rfl, rfl, rfl, rfl, rfl⟩

theorem resolveRelative_selects (h : resolveRelative op base q am rs = .ok m) :
    (modeRow m).selects op base q am rs := by
  unfold resolveRelative at h
  split at h
  case h_4 => cases h
  all_goals cases am <;> cases rs <;> cases h <;> exact ⟨rfl, rfl, rfl, rfl, rfl⟩

theorem resolveNoAddress_selects (h : resolveNoAddress op base q am rs = .ok m) :
    (modeRow m).selects op base q am rs := by
  unfold resolveNoAddress at h
  split at h
  case h_7 => cases h
  all_goals cases am <;> cases rs <;> cases h <;> exact ⟨rfl, rfl, rfl, rfl, rfl⟩

/-- A mode that resolves has a row that selects it. -/
theorem resolve_selects (h : resolve op base q am rs = .ok m) : (modeRow m).selects op base q am rs := by
  cases base
  case zp | zpX | zpY | abs | absX | absY =>
    obtain ⟨rfl, rfl, rfl⟩ := resolveDirect_ok h
    cases am <;> exact ⟨rfl, rfl, rfl, rfl, rfl⟩
  case zpInd | zpIndY | zpXInd | absInd | absIndY | absXInd =>
    obtain ⟨hop, hm⟩ := resolveIndirect_ok h
    exact indirectMode_row hm hop
  case rel | relwide => exact resolveRelative_selects h
  case implied | accumulator | address | addressUnknown | imm | eind => exact resolveNoAddress_selects h

/-- The mode whose row selects the fields is the one they resolve to. -/
theorem resolve_of_selects (h : (modeRow m).selects op base q am rs) : resolve op base q am rs = .ok m := by
  obtain ⟨rfl, rfl, hop, ham, hrs⟩ := h
  cases m
  case implied => rfl
  case accumulator => obtain rfl := AmReq.admits_exactly.1 ham; rfl
  case immediate | immediate16 | immediate32 | immediate64 =>
    obtain rfl := OpReq.admits_data.1 hop
    obtain rfl := RsReq.admits_exactly.1 hrs
    rfl
  case address | addressLong | addressQuad =>
    obtain rfl := OpReq.admits_jump.1 hop
    obtain rfl := AmReq.admits_exactly.1 ham
    rfl
  case relative | relative16 | relative32 | relative64 =>
    obtain rfl := OpReq.admits_branch.1 hop
    obtain rfl := AmReq.admits_exactly.1 ham
    obtain rfl := RsReq.admits_exactly.1 hrs
    rfl
  case relativeBsr | relative16Bsr | relative32Bsr | relative64Bsr =>
    obtain rfl := OpReq.admits_bsr.1 hop
    obtain rfl := AmReq.admits_exactly.1 ham
    obtain rfl := RsReq.admits_exactly.1 hrs
    rfl
  case eIndirect | zeropage | zeropageX | zeropageY | absolute16 | absolute16X | absolute16Y | absolute32
      | absolute32X | absolute32Y | absolute64 | absolute64X | absolute64Y =>
    obtain rfl := OpReq.admits_data.1 hop
    obtain rfl := AmReq.admits_exactly.1 ham
    rfl
  all_goals
    obtain rfl := AmReq.admits_exactly.1 ham
    rcases OpReq.admits_dataOrJump.1 hop with rfl | rfl <;> rfl

theorem resolve_ok_iff : resolve op base q am rs = .ok m ↔ (modeRow m).selects op base q am rs :=
  ⟨resolve_selects, resolve_of_selects⟩
end

/-- Settles O37: the columns asked for are the ones `ModeRow.selects` names. -/
theorem resolveMatchesTable : Obligations.ResolveMatchesTable := by
  intro op base q am rs m
  exact resolve_ok_iff

end Sys2Proof.Machine
end

section
/-!
PROOF. O42 to O46, what selection refuses and accepts (R54, R84, R85, R89, R97): `classify` by what `resolve` answers, then
`resolve` on the bases the refusals speak of.
-/

namespace Sys2Proof.Machine

/-- The modes whose parameter is no address: M1, M2, M6 to M10 and the relative modes (R97). -/
def nonAddressModes : List Mode :=
  [.implied, .accumulator, .immediate, .immediate16, .immediate32, .immediate64, .eIndirect, .relative, .relative16,
    .relative32, .relative64, .relativeBsr, .relative16Bsr, .relative32Bsr, .relative64Bsr]

/-- They are the modes whose row takes no OF. -/
theorem mem_nonAddressModes_iff {m : Mode} : m ∈ nonAddressModes ↔ (modeRow m).takesOffset = false := by
  cases m <;> decide

section
variable {o : OpcEntry} {f : Pfx} {m : Mode} {r : Reject}

/-- A refused resolution is the refusal of the opcode. -/
theorem classify_of_resolve_error (h : resolve o.op o.base o.q f.am f.rs = .error r) : classify o f = .error r := by
  simp [classify, h]

/-- Without an offset the mode is the one that resolves. -/
theorem classify_of_off_none (h : resolve o.op o.base o.q f.am f.rs = .ok m) (hf : f.off = .none) :
    classify o f = .ok m := by
  simp [classify, h, hf]

/-- A mode that takes OF is accepted with any OF (R97). -/
theorem classify_of_takesOffset (h : resolve o.op o.base o.q f.am f.rs = .ok m)
    (hm : (modeRow m).takesOffset = true) : classify o f = .ok m := by
  simp [classify, h, hm]

/-- On a mode without an address parameter OF other than 00 is refused (R97, D13). -/
theorem classify_of_nonAddress (h : resolve o.op o.base o.q f.am f.rs = .ok m) (hf : f.off ≠ .none)
    (hm : m ∈ nonAddressModes) : classify o f = .error .ofOnNonAddressMode := by
  simp [classify, h, hf, mem_nonAddressModes_iff.1 hm]
end

/-- Settles O45: the three cases are the lemmas on `classify` above. -/
theorem offsetApplicability : Obligations.OffsetApplicability := by
  intro o f m hres
  split
  case isTrue hm =>
    split
    case isTrue hf => exact classify_of_off_none hres hf
    case isFalse hf => exact classify_of_nonAddress hres hf hm
  case isFalse hm =>
    exact classify_of_takesOffset hres (Bool.of_not_eq_false fun ht => hm (mem_nonAddressModes_iff.2 ht))

/-- Settles O46: `classify` takes its mode from `resolve`, which is not given OF. -/
theorem offsetChangesNoLength : Obligations.OffsetChangesNoLength := by
  intro o f x m m' hm hm'
  have hres : resolve o.op o.base o.q f.am f.rs = .ok m := (classify_ok hm).1
  have hres' : resolve o.op o.base o.q f.am f.rs = .ok m' := (classify_ok hm').1
  obtain rfl : m' = m := Except.ok.inj (hres'.symm.trans hres)
  exact ⟨rfl, rfl⟩

/-- A mirrored opcode without AM is refused, whatever the operation (R85, D16). -/
theorem resolve_mirrored_without_am {base : Base} (hb : indirectBase base = true) (op : OpClass) (rs : RS) :
    resolve op base true false rs = .error .mirroredRowWithoutAm := by
  rw [resolve_of_indirectBase hb]
  rfl

/-- Without AM a data or jump operation on an unmirrored indirect base gets the mode `indirectMode` lists. -/
theorem resolve_indirect_without_am {op : OpClass} {base : Base} {rs : RS} {m : Mode} (hop : op = .data ∨ op = .jump)
    (hb : indirectBase base = true) (hm : indirectMode base false false = some m) :
    resolve op base false false rs = .ok m := by
  rw [resolve_of_indirectBase hb]
  rcases hop with rfl | rfl <;> simp [resolveIndirect, hm]

/-- Every indirect base has a 16-bit and a 64-bit form, which differ and have parameters of one length (R84, R86). -/
theorem indirectMode_mirrored {base : Base} (hb : indirectBase base = true) :
    ∃ m m0, indirectMode base true true = some m ∧ indirectMode base false false = some m0 ∧ m ≠ m0 ∧
      paramLen m = paramLen m0 := by
  cases base
  case zpInd | zpIndY | zpXInd | absInd | absIndY | absXInd => exact ⟨_, _, rfl, rfl, by decide, rfl⟩
  all_goals cases hb

/-- The mirrors of R53, with "row LSB n" read as the low hexadecimal digit (D17). -/
theorem mirrorByte_rows : ∀ h : BitVec 4,
    mirrorByte (h ++ 1#4) = some (h ++ 3#4) ∧ mirrorByte (h ++ 2#4) = some (h ++ 7#4) := by
  decide

/-- The mirrored rows of a map are its unmirrored indirect rows at the mirrored byte (R84). -/
theorem mem_mirrorRows_iff {l : List OpcEntry} {o' : OpcEntry} :
    o' ∈ mirrorRows l ↔ ∃ o ∈ l, indirectBase o.base = true ∧ o.q = false ∧
      ∃ b, mirrorByte o.byte = some b ∧ o' = ⟨b, o.op, o.base, true⟩ := by
  rw [mirrorRows, List.mem_filterMap]
  refine exists_congr fun o => and_congr_right fun _ => ?_
  split
  case isTrue h =>
    obtain ⟨hb, hq⟩ : indirectBase o.base = true ∧ o.q = false := by simpa using h
    simp only [Option.map_eq_some_iff, hb, hq, true_and, @eq_comm _ o']
  case isFalse h =>
    exact iff_of_false (by simp) fun ⟨hb, hq, _⟩ => h (by simp [hb, hq])

/-- Settles O42: a mirrored opcode by the lemmas on `resolve`, the mirrors by the two above. -/
theorem mirroredRowsNeedAm : Obligations.MirroredRowsNeedAm := by
  refine ⟨fun op rs base hb => ⟨resolve_mirrored_without_am hb op rs, fun hop => ?_⟩, mirrorByte_rows,
    fun l o' => mem_mirrorRows_iff⟩
  obtain ⟨m, m0, hm, hm0, hne, hlen⟩ := indirectMode_mirrored hb
  exact ⟨m, m0, resolve_indirect_of_am hop hb hm, hm, resolve_indirect_without_am hop hb hm0, hne, hlen⟩

/-- BSR with RS other than 00 is refused on both of its bases (R89, D15). -/
theorem resolve_bsr_of_rs {rs : RS} (am : Bool) (h : rs ≠ .rs00) :
    resolve .bsr .rel false am rs = .error .rsOnBsr ∧ resolve .bsr .relwide false am rs = .error .rsOnBsr := by
  simp [resolve, resolveRelative, h]

/-- Settles O43: one entry of `resolveRelative` per line; the refusal by `resolve_bsr_of_rs`. -/
theorem relativeWidthSelection : Obligations.RelativeWidthSelection :=
  ⟨rfl, rfl, rfl, rfl, fun _ => rfl, rfl, rfl, rfl, rfl, fun am _ h => resolve_bsr_of_rs am h⟩

/-- An opcode byte that no row of OPC has is found nowhere. -/
theorem findOpcode_eq_none {c : Platform} {b : Byte} (h : ∀ o ∈ c.opc, o.byte ≠ b) : findOpcode c b = none := by
  simpa [findOpcode] using h

/-- Settles O44: each refused combination is refused by `resolve`, but OF on a mode without an address parameter by
`classify`, and an unmapped byte by `decode` itself. -/
theorem reservedCombinationsRefused : Obligations.ReservedCombinationsRefused := by
  refine ⟨?mirrored, ?unlisted, ?offset, ?relative, ?unmapped, ?accepted⟩
  case mirrored =>
    intro b op base f hb ham
    exact classify_of_resolve_error (by rw [ham]; exact resolve_mirrored_without_am hb op f.rs)
  case unlisted =>
    intro b op f ham
    exact ⟨classify_of_resolve_error (by rw [ham]; rfl), classify_of_resolve_error (by rw [ham]; rfl)⟩
  case offset => exact fun o f m hres hf hm => classify_of_nonAddress hres hf hm
  case relative =>
    refine fun b f => ⟨fun ham => classify_of_resolve_error (by rw [ham]; rfl), fun hrs => ?_⟩
    obtain ⟨hrel, hwide⟩ := resolve_bsr_of_rs f.am hrs
    exact ⟨classify_of_resolve_error hrel, classify_of_resolve_error hwide⟩
  case unmapped =>
    intro c bs rest f b hp hb
    simp [decode, hp, findOpcode_eq_none hb]
  case accepted =>
    intro b op f ham hf
    exact ⟨classify_of_off_none rfl hf, _, classify_of_off_none rfl hf⟩

end Sys2Proof.Machine
end

section
/-!
PROOF. O47 and O49 to O53, decoding and encoding. `decode_layout` says once how a decoded instruction lies in the
bytes; the round trip finds prefix, opcode and mode again, one lemma each.
-/

namespace Sys2Proof.Machine

section
variable {c : Platform} {bs rest more : List Byte} {i : Instr}

/-- What an accepted classification makes of the head: the four checks of its row (R61, R97). -/
theorem Head.wf_of_classify {o : OpcEntry} {f : Pfx} {m : Mode} (h : classify o f = .ok m) (hf : f.fieldsOk = true) :
    Head.wf ⟨m, o.op, f⟩ = true := by
  obtain ⟨hres, hoff⟩ := classify_ok h
  obtain ⟨-, -, hop, ham, hrs⟩ := resolve_ok_iff.1 hres
  simpa [Head.wf, Head.opOk, Head.amOk, Head.rsOk, Head.ofOk, hop, ham, hrs, hf] using hoff

/-- A found prefix and the bytes after it are all there were. -/
theorem decodePfx_length {l : List PfxEntry} {f : Pfx} (h : decodePfx l bs = .ok (f, rest)) :
    bs.length = f.len + rest.length := by
  obtain ⟨rfl, hle, -⟩ := decodePfx_ok h
  rw [List.length_drop]
  omega

/-- How a decoded instruction lies in the bytes: it is well formed, it took its length, left the rest, has all fields 0
where it took no prefix bytes, and its parameter is the value of the bytes after prefix and opcode. -/
structure Layout (bs : List Byte) (i : Instr) (rest : List Byte) : Prop where
  wf : i.wf = true
  rest_eq : rest = bs.drop ((instrHead i).f.len + 1 + paramLen (instrHead i).mode)
  length_le : (instrHead i).f.len + 1 + paramLen (instrHead i).mode ≤ bs.length
  absent : (instrHead i).f.len = 0 → (instrHead i).f = Pfx.absent
  param : instrParam i = littleValue ((bs.drop ((instrHead i).f.len + 1)).take (paramLen (instrHead i).mode))

theorem decode_layout (h : decode c bs = .ok (i, rest)) : Layout bs i rest := by
  obtain ⟨f, b, r, o, m, hp, -, hm, hlen, rfl, rfl⟩ := decode_ok h
  obtain ⟨hdrop, -, hfields, habsent⟩ := decodePfx_ok hp
  have hr : r = bs.drop (f.len + 1) := by rw [← List.drop_drop, ← hdrop]; rfl
  have hbs : bs.length = f.len + (r.length + 1) := decodePfx_length hp
  obtain ⟨hhead, hparam⟩ := parts_mkInstr ⟨m, o.op, f⟩ (assemble params.byteOrder (r.take (paramLen m)))
  have hfits : littleValue (r.take (paramLen m)) < 2 ^ (8 * paramLen m) :=
    (littleValue_lt _).trans_le (Nat.pow_le_pow_right (by decide) (by simp))
  constructor <;> simp only [Instr.wf, hhead]
  case wf => exact Head.wf_of_classify hm hfields
  case rest_eq => rw [hr, List.drop_drop]
  case length_le => omega
  case absent => exact habsent
  case param => rw [hparam, ← hr]; exact Nat.mod_eq_of_lt hfits

/-- Settles O50: three parts of `Layout`. -/
theorem decodeIsSound : Obligations.DecodeIsSound :=
  fun _ _ _ _ h => ⟨(decode_layout h).wf, (decode_layout h).rest_eq, (decode_layout h).length_le⟩

/-- Settles O49: without prefix bytes the fields are those of `Pfx.absent`. -/
theorem noPrefixMeansZeroFields : Obligations.NoPrefixMeansZeroFields := by
  intro c bs rest i h hlen
  rw [(decode_layout h).absent hlen]
  exact ⟨rfl, rfl, rfl⟩

/-- How decoding an instruction is put together from finding its prefix, its opcode and its mode. -/
theorem decode_of_parts {f : Pfx} {b : Byte} {o : OpcEntry} {m : Mode} (hp : decodePfx c.pfx bs = .ok (f, b :: rest))
    (ho : findOpcode c b = some o) (hm : classify o f = .ok m) (hlen : paramLen m ≤ rest.length) :
    decode c bs =
      .ok (mkInstr ⟨m, o.op, f⟩ (assemble params.byteOrder (rest.take (paramLen m))), rest.drop (paramLen m)) := by
  simp [decode, hp, ho, hm, hlen]

/-- Bytes after an instruction are left over. -/
theorem decode_append (more : List Byte) (h : decode c bs = .ok (i, rest)) :
    decode c (bs ++ more) = .ok (i, rest ++ more) := by
  obtain ⟨f, b, r, o, m, hp, ho, hm, hlen, rfl, rfl⟩ := decode_ok h
  have hp' : decodePfx c.pfx (bs ++ more) = .ok (f, b :: (r ++ more)) := decodePfx_append hp
  rw [decode_of_parts hp' ho hm (by simp; omega), List.take_append_of_le_length hlen,
    List.drop_append_of_le_length hlen]

/-- Settles O51: by `decode_append`. -/
theorem decodeReadsOnlyItsBytes : Obligations.DecodeReadsOnlyItsBytes :=
  fun _ _ _ more _ h => decode_append more h
end

/-! ### The round trip -/

/-- Maps that are unambiguous, as propositions: one row per opcode byte, prefixes of which none agrees with another, and
no prefix that begins with an opcode byte (or is empty). -/
theorem unambiguous_maps {c : Platform} (h : c.unambiguous = true) :
    c.opc.Pairwise (fun x y => x.byte ≠ y.byte) ∧
    c.pfx.Pairwise (fun x y => x.bytes.isPrefixOf y.bytes = false ∧ y.bytes.isPrefixOf x.bytes = false) ∧
    ∀ e ∈ c.pfx, ∃ x xs, e.bytes = x :: xs ∧ ∀ o ∈ c.opc, o.byte ≠ x := by
  simp only [Platform.unambiguous, Bool.and_eq_true, decide_eq_true_eq, List.all_eq_true] at h
  obtain ⟨⟨⟨hopc, hpfx⟩, hfirst⟩, -⟩ := h
  refine ⟨hopc, hpfx, fun e he => ?_⟩
  cases hb : e.bytes with
  | nil => simpa [hb] using hfirst e he
  | cons x xs => exact ⟨x, xs, rfl, by simpa [hb] using hfirst e he⟩

/-- Among rows with different bytes each is found by its byte. -/
theorem findOpcode_of_mem {c : Platform} {o : OpcEntry} (hopc : c.opc.Pairwise (fun x y => x.byte ≠ y.byte))
    (ho : o ∈ c.opc) : findOpcode c o.byte = some o := by
  unfold findOpcode
  generalize c.opc = l at hopc ho ⊢
  induction hopc with
  | nil => cases ho
  | cons hx _ ih =>
    rcases List.mem_cons.1 ho with rfl | ho
    · simp
    · simp [hx o ho, ih ho]

section
variable {c : Platform} {i : Instr} {bs pre : List Byte} {f : Pfx} {h : Head} {b : Byte}

/-- The bytes of an instruction are its prefix, its opcode and its parameter. -/
theorem encode_ok (hi : encode c i = some bs) :
    ∃ pre b, encodePfx c (instrHead i).f = some pre ∧ encodeOpcode c (instrHead i) = some b ∧
      bs = pre ++ b :: encodeParam i := by
  unfold encode at hi
  split at hi
  case h_1 hp hb => exact ⟨_, _, hp, hb, (Option.some.inj hi).symm⟩
  case h_2 => cases hi

/-- An encoded opcode is the byte of a row with the head's op class, base and Q. -/
theorem encodeOpcode_ok (hb : encodeOpcode c h = some b) :
    ∃ o ∈ c.opc, o.byte = b ∧ o.op = h.op ∧ o.base = (modeRow h.mode).base ∧ o.q = (modeRow h.mode).q := by
  obtain ⟨o, ho, hbyte⟩ := Option.map_eq_some_iff.1 hb
  have hsel := List.find?_some ho
  simp only [Bool.and_eq_true, beq_iff_eq, and_assoc] at hsel
  exact ⟨o, List.mem_of_find?_eq_some ho, hbyte, hsel⟩

/-- An encoded prefix is no bytes for absent fields, or the bytes of an entry with these fields and this length. -/
theorem encodePfx_ok (hp : encodePfx c f = some pre) :
    (f = Pfx.absent ∧ pre = []) ∨
    ∃ e ∈ c.pfx, pre = e.bytes ∧ f = ⟨e.am, e.off, e.rs, e.bytes.length⟩ := by
  unfold encodePfx at hp
  split at hp
  case isTrue =>
    split at hp
    case isTrue hf => exact .inl ⟨hf, (Option.some.inj hp).symm⟩
    case isFalse => cases hp
  case isFalse =>
    obtain ⟨e, he, rfl⟩ := Option.map_eq_some_iff.1 hp
    have hsel := List.find?_some he
    simp only [Bool.and_eq_true, beq_iff_eq] at hsel
    obtain ⟨⟨⟨ham, hoff⟩, hrs⟩, hlen⟩ := hsel
    exact .inr ⟨e, List.mem_of_find?_eq_some he, rfl, by rw [ham, hoff, hrs, hlen]⟩

/-- Over unambiguous maps an encoded prefix is found again before any opcode byte. -/
theorem decodePfx_of_encodePfx {o : OpcEntry} (hu : c.unambiguous = true) (hp : encodePfx c f = some pre)
    (ho : o ∈ c.opc) (tl : List Byte) : decodePfx c.pfx (pre ++ o.byte :: tl) = .ok (f, o.byte :: tl) := by
  obtain ⟨-, hpfx, hfirst⟩ := unambiguous_maps hu
  rcases encodePfx_ok hp with ⟨rfl, rfl⟩ | ⟨e, he, rfl, rfl⟩
  · refine decodePfx_absent fun e he => ?_
    obtain ⟨x, xs, hx, hopc⟩ := hfirst e he
    exact ⟨x, xs, hx, (hopc o ho).symm⟩
  · obtain ⟨x, xs, hx, -⟩ := hfirst e he
    exact decodePfx_entry _ he (by simp [hx]) hpfx

/-- The row an encoded opcode stands in classifies as the mode of a well-formed head. -/
theorem classify_of_wf {o : OpcEntry} (hwf : h.wf = true) (hop : o.op = h.op) (hbase : o.base = (modeRow h.mode).base)
    (hq : o.q = (modeRow h.mode).q) : classify o h.f = .ok h.mode := by
  simp only [Head.wf, Head.opOk, Head.amOk, Head.rsOk, Head.ofOk, Bool.and_eq_true, Bool.or_eq_true, beq_iff_eq] at hwf
  obtain ⟨⟨⟨⟨hopOk, ham⟩, hrs⟩, hoff⟩, -⟩ := hwf
  have hres : resolve o.op o.base o.q h.f.am h.f.rs = .ok h.mode :=
    resolve_ok_iff.2 ⟨hbase.symm, hq.symm, hop ▸ hopOk, ham, hrs⟩
  rcases hoff with hoff | hoff
  · exact classify_of_off_none hres hoff
  · exact classify_of_takesOffset hres hoff

/-- The parameter bytes of an instruction have its parameter as their value. -/
theorem assemble_encodeParam (i : Instr) : assemble params.byteOrder (encodeParam i) = instrParam i :=
  (littleValue_littleBytes _ _).trans (Nat.mod_eq_of_lt (instrParam_lt i))
end

/-- Settles O52: prefix, opcode and mode are found again, and the parameter's bytes give the parameter. -/
theorem decodeOfEncode : Obligations.DecodeOfEncode := by
  intro c i bs more hu hwf hi
  obtain ⟨pre, b, hp, hb, rfl⟩ := encode_ok hi
  obtain ⟨o, ho, rfl, hop, hbase, hq⟩ := encodeOpcode_ok hb
  have hlen : (encodeParam i).length = paramLen (instrHead i).mode := bytesOf_length _ _ _
  have hpfx : decodePfx c.pfx ((pre ++ o.byte :: encodeParam i) ++ more) =
      .ok ((instrHead i).f, o.byte :: (encodeParam i ++ more)) := by
    simpa using decodePfx_of_encodePfx hu hp ho (encodeParam i ++ more)
  have hopc : findOpcode c o.byte = some o := findOpcode_of_mem (unambiguous_maps hu).1 ho
  rw [decode_of_parts hpfx hopc (classify_of_wf hwf hop hbase hq) (by simp [hlen]), ← hlen, List.take_left,
    List.drop_left, assemble_encodeParam, hop]
  exact congrArg (fun j => Except.ok (j, more)) (mkInstr_parts i)

/-! ### Lengths and fixed words -/

/-- Settles O47: the encoded length is the law of `encode`; the five formats are read off the table. -/
theorem parameterLengths : Obligations.ParameterLengths :=
  ⟨fun c i bs h => Laws.EncodedLength.any i c bs h, by decide, by decide, by decide, by decide, by decide⟩

/-- Settles O53: the words of the listings, decoded. -/
theorem decodesProgramWords : Obligations.DecodesProgramWords :=
  ⟨rfl, rfl, rfl, rfl, rfl, rfl, rfl⟩

end Sys2Proof.Machine
end

section
/-!
PROOF. O58, O59 and the frames O29 to O32 (R18, R33, R52, R61). What a well-formed instruction's mode gives is admissible for
its op class and RS, and `exec_frame` says what any instruction changes.
-/

namespace Sys2Proof.Machine

/-! ### What every instruction changes -/

/-- Everything there is to say of the next state of an instruction: what it leaves as it was, and that it delivers the
one result of its mode, which PC follows. -/
structure Frame (i : Instr) (s t : State) : Prop where
  xr : t.xr = s.xr
  yr : t.yr = s.yr
  e : t.e = s.e
  sr : t.sr = s.sr
  br : t.br = s.br
  acc : (instrHead i).mode ≠ .accumulator → t.acc = s.acc
  mem : t.mem = s.mem
  platform : t.platform = s.platform
  free : t.free = s.free + 1
  result : ∃ r, modeResult i s = .ok r ∧ t.delivered = s.delivered ++ [⟨(instrHead i).op, (instrHead i).f.rs, r⟩] ∧
    t.pc = pcAfter (instrHead i).op (s.past (instrHead i).f (paramLen (instrHead i).mode)) r s.free

/-- Modes other than Accumulator deliver in the state they were given. -/
theorem beforeDelivery_of_ne {i : Instr} (h : (instrHead i).mode ≠ .accumulator) (s : State) :
    beforeDelivery i s = s := by
  cases i
  case accumulator => exact absurd rfl h
  all_goals rfl

/-- Every instruction keeps its frame. -/
theorem exec_frame {i : Instr} {s t : State} (h : exec i s = .next t) : Frame i s t := by
  obtain ⟨r, hr, rfl⟩ := exec_next h
  obtain ⟨hpc, hxr, hyr, he, hsr, hbr, hmem, hplat, hdel, hfree⟩ := beforeDelivery_frame i s
  exact {
    xr := hxr, yr := hyr, e := he, sr := hsr, br := hbr, mem := hmem, platform := hplat
    acc := fun hm => by rw [beforeDelivery_of_ne hm, State.deliver_acc]
    free := congrArg (· + 1) hfree
    result := ⟨r, hr, by rw [State.deliver_delivered, hdel],
      by rw [State.deliver_pc, hpc, hfree, nextAddress_eq_past]⟩ }

/-- Settles O29: by the frame of `exec`. -/
theorem noModeWritesMemory : Obligations.NoModeWritesMemory := by
  intro i s t h
  have hmem := (exec_frame h).mem
  exact ⟨hmem, fun a => by rw [hmem]⟩

/-- Settles O30: by the frame of `exec`; the one delivery is under the head's op class and RS. -/
theorem registerFrame : Obligations.RegisterFrame := by
  intro i s t h
  have hf := exec_frame h
  obtain ⟨r, -, hdel, -⟩ := hf.result
  exact ⟨hf.xr, hf.yr, hf.e, hf.sr, hf.br, hf.platform, hf.acc, hf.free, _, hdel, rfl, rfl⟩

/-- Settles O31: a step that answers a next state runs an instruction. -/
theorem stepFrame : Obligations.StepFrame := by
  intro s t h
  obtain ⟨i, rest, -, hi⟩ := step_next h
  have hf := exec_frame hi
  obtain ⟨r, -, hdel, -⟩ := hf.result
  exact ⟨hf.xr, hf.yr, hf.e, hf.sr, hf.br, hf.mem, hf.platform, hf.free, _, hdel⟩

/-! ### Only admissible results are delivered -/

/-- The checks of a well-formed instruction that its row makes of op class and RS. -/
theorem row_admits_of_wf {i : Instr} (h : i.wf = true) :
    (modeRow (instrHead i).mode).op.admits (instrHead i).op = true ∧
    (modeRow (instrHead i).mode).rs.admits (instrHead i).f.rs = true := by
  simp only [Instr.wf, Head.wf, Head.opOk, Head.rsOk, Bool.and_eq_true] at h
  obtain ⟨⟨⟨⟨hop, -⟩, hrs⟩, -⟩, -⟩ := h
  exact ⟨hop, hrs⟩

section
variable {op : OpClass} {rs : RS} {a : Word} {v n : Nat}

@[simp] theorem admissible_ea : Delivery.admissible ⟨op, rs, .ea a⟩ = true ↔ op = .data ∨ op = .jump := by
  simp [Delivery.admissible]

@[simp] theorem admissible_target : Delivery.admissible ⟨op, rs, .target a⟩ = true ↔
    (op = .jump ∨ op = .branch) ∨ op = .bsr ∧ rs = .rs00 := by
  simp [Delivery.admissible]

@[simp] theorem admissible_imm : Delivery.admissible ⟨op, rs, .imm v n⟩ = true ↔
    (op = .data ∧ n = immediateLength rs) ∧ v < 2 ^ (8 * n) := by
  simp [Delivery.admissible]
end

/-- An indirect mode gives an effective address. -/
theorem indirectResult_ok {h : Head} {p : Word} {w : Nat} {ix : Index} {s : State} {r : ModeResult}
    (hr : indirectResult h p w ix s = .ok r) : ∃ a, r = .ea a := by
  unfold indirectResult at hr
  split at hr
  · cases hr
  · exact ⟨_, (Except.ok.inj hr).symm⟩

/-- What the mode of a well-formed instruction gives is admissible for its op class and RS (R45, R61). -/
theorem modeResult_admissible {i : Instr} {s : State} {r : ModeResult} (hwf : i.wf = true)
    (hr : modeResult i s = .ok r) : Delivery.admissible ⟨(instrHead i).op, (instrHead i).f.rs, r⟩ = true := by
  obtain ⟨hop, hrs⟩ := row_admits_of_wf hwf
  cases i
  case implied | accumulator => cases hr; rfl
  case immediate p | immediate16 p | immediate32 p | immediate64 p =>
    obtain rfl := Except.ok.inj hr
    have hwidth := congrArg immediateLength (RsReq.admits_exactly.1 hrs)
    exact admissible_imm.2 ⟨⟨OpReq.admits_data.1 hop, hwidth.symm⟩, p.isLt⟩
  case address | addressLong | addressQuad =>
    obtain rfl := Except.ok.inj hr
    exact admissible_target.2 (.inl (.inl (OpReq.admits_jump.1 hop)))
  case relative | relative16 | relative32 | relative64 =>
    obtain rfl := Except.ok.inj hr
    exact admissible_target.2 (.inl (.inr (OpReq.admits_branch.1 hop)))
  case relativeBsr | relative16Bsr | relative32Bsr | relative64Bsr =>
    obtain rfl := Except.ok.inj hr
    exact admissible_target.2 (.inr ⟨OpReq.admits_bsr.1 hop, RsReq.admits_exactly.1 hrs⟩)
  case eIndirect | zeropage | zeropageX | zeropageY | absolute16 | absolute16X | absolute16Y | absolute32
      | absolute32X | absolute32Y | absolute64 | absolute64X | absolute64Y =>
    obtain rfl := Except.ok.inj hr
    exact admissible_ea.2 (.inl (OpReq.admits_data.1 hop))
  all_goals
    obtain ⟨a, rfl⟩ := indirectResult_ok hr
    exact admissible_ea.2 (OpReq.admits_dataOrJump.1 hop)

/-- Settles O58: memory is as before, and the one new delivery is that of a decoded, hence well-formed instruction. -/
theorem stepKeepsInvariant : Obligations.StepKeepsInvariant := by
  rintro s t ⟨hmem, hdel⟩ h
  obtain ⟨i, rest, hdec, hi⟩ := step_next h
  have hf := exec_frame hi
  obtain ⟨r, hr, hdel', -⟩ := hf.result
  refine ⟨hf.mem ▸ hmem, fun d hd => ?_⟩
  rw [hdel', List.mem_append, List.mem_singleton] at hd
  rcases hd with hd | rfl
  · exact hdel d hd
  · exact modeResult_admissible (decode_layout hdec).wf hr

/-- Settles O59: nothing has been delivered at reset. -/
theorem resetSatisfiesInvariant : Obligations.ResetSatisfiesInvariant :=
  ⟨State.reset_mem_wf, fun _ hd => nomatch hd⟩

/-! ### PC after a data instruction -/

/-- A data operation goes on to the next instruction, whatever it was handed but a target. -/
theorem pcAfter_data {r : ModeResult} (hr : ∀ a, r ≠ .target a) (next : Word) (k : Nat) :
    pcAfter .data next r k = next := by
  cases r with
  | target a => exact absurd rfl (hr a)
  | none | acc | imm | ea => rfl

/-- Settles O32: an admissible result of a data operation is no target. -/
theorem dataInstructionsAdvance : Obligations.DataInstructionsAdvance := by
  intro i s t hop hwf h
  obtain ⟨r, hr, -, hpc⟩ := (exec_frame h).result
  have hadm := modeResult_admissible hwf hr
  rw [hop] at hadm hpc
  rw [hpc, pcAfter_data (by rintro a rfl; simp at hadm)]
  rfl

end Sys2Proof.Machine
end

section
/-!
PROOF. O33 to O36, what an instruction's outcome does not depend on (R2, R11 to R16, R30). `modeResult_congr` names all that
a mode reads of the state; each statement then changes one field that is not among it.
-/

namespace Sys2Proof.Machine

/-- Everything of the state that the mode of `i` reads is the same in `s'` as in `s`: PC and the platform, Off(OF), and
each index register, E and the memory where the mode has a use for it. -/
structure SameReads (i : Instr) (s s' : State) : Prop where
  pc : s'.pc = s.pc
  platform : s'.platform = s.platform
  offset : offsetValue (instrHead i) s' = offsetValue (instrHead i) s
  indexX : Tok.commaX ∈ operandForm (instrHead i).mode .none → s'.xr = s.xr
  indexY : Tok.commaY ∈ operandForm (instrHead i).mode .none → s'.yr = s.yr
  eReg : (instrHead i).mode = .eIndirect → s'.e = s.e
  memory : indirectBase (modeRow (instrHead i).mode).base = true → s'.mem = s.mem

section
variable {h : Head} {p : Word} {w : Nat} {s s' : State}

theorem offsetBase_congr (hoff : offsetValue h s' = offsetValue h s) : offsetBase h p s' = offsetBase h p s := by
  rw [offsetBase_eq, offsetBase_eq, hoff]

theorem directAddress_congr {ix : Index} (hoff : offsetValue h s' = offsetValue h s) (hx : ix = .x → s'.xr = s.xr)
    (hy : ix = .y → s'.yr = s.yr) : directAddress h p ix s' = directAddress h p ix s := by
  cases ix with
  | none => exact offsetBase_congr hoff
  | x => simp only [directAddress, offsetBase_congr hoff, hx rfl]
  | y => simp only [directAddress, offsetBase_congr hoff, hy rfl]

theorem indirectResult_congr {ix : Index} (hoff : offsetValue h s' = offsetValue h s) (hx : ix = .x → s'.xr = s.xr)
    (hy : ix = .y → s'.yr = s.yr) (hm : ∀ a n, s'.memRead .addressRead a n = s.memRead .addressRead a n) :
    indirectResult h p w ix s' = indirectResult h p w ix s := by
  cases ix with
  | none => simp only [indirectResult, pointerLocation_none, indirectAddress_none, hoff, hm]
  | x => simp only [indirectResult, pointerLocation_x, indirectAddress_x, hoff, hx rfl, hm]
  | y => simp only [indirectResult, pointerLocation_y, indirectAddress_y, hoff, hy rfl, hm]
end

theorem relBase_congr (h : Head) {s s' : State} (hpc : s'.pc = s.pc) (hplat : s'.platform = s.platform) :
    relBase h s' = relBase h s := by
  unfold relBase
  rw [hpc, hplat]

/-- A mode gives the same result where all it reads is the same. -/
theorem modeResult_congr {i : Instr} {s s' : State} (h : SameReads i s s') : modeResult i s' = modeResult i s := by
  obtain ⟨hpc, hplat, hoff, hx, hy, he, hmem⟩ := h
  have hbase := relBase_congr (instrHead i) hpc hplat
  have hm := fun hi a n => State.memRead_congr s s' .addressRead a n hpc (hmem hi) hplat
  cases i
  case implied | accumulator | immediate | immediate16 | immediate32 | immediate64 => rfl
  case eIndirect => exact congrArg (fun a => Except.ok (ModeResult.ea a)) (he rfl)
  case address p | addressLong p | addressQuad p =>
    exact congrArg (fun a => Except.ok (ModeResult.target (zext64 p + a))) hoff
  case relative p | relative16 p | relative32 p | relative64 p | relativeBsr p | relative16Bsr p | relative32Bsr p
      | relative64Bsr p =>
    exact congrArg (fun a => Except.ok (ModeResult.target (a + sext64 p))) hbase
  case zeropage | absolute16 | absolute32 | absolute64 =>
    exact congrArg (fun a => Except.ok (ModeResult.ea a)) (directAddress_congr hoff nofun nofun)
  case zeropageX | absolute16X | absolute32X | absolute64X =>
    have hx := hx (of_decide_eq_true rfl)
    exact congrArg (fun a => Except.ok (ModeResult.ea a)) (directAddress_congr hoff (fun _ => hx) nofun)
  case zeropageY | absolute16Y | absolute32Y | absolute64Y =>
    have hy := hy (of_decide_eq_true rfl)
    exact congrArg (fun a => Except.ok (ModeResult.ea a)) (directAddress_congr hoff nofun fun _ => hy)
  case zeropageIndirect16 | absoluteIndirect16 | zeropageIndirect32 | absoluteIndirect32 | zeropageIndirect64
      | absoluteIndirect64 =>
    exact indirectResult_congr hoff nofun nofun (hm rfl)
  case zeropageXIndirect16 | absoluteXIndirect16 | zeropageXIndirect32 | absoluteXIndirect32 | zeropageXIndirect64
      | absoluteXIndirect64 =>
    exact indirectResult_congr hoff (fun _ => hx (of_decide_eq_true rfl)) nofun (hm rfl)
  case zeropageIndirect16Y | absoluteIndirect16Y | zeropageIndirect32Y | absoluteIndirect32Y | zeropageIndirect64Y
      | absoluteIndirect64Y =>
    exact indirectResult_congr hoff nofun (fun _ => hy (of_decide_eq_true rfl)) (hm rfl)

section
variable {h : Head} (s : State) (v : Word)

/-- SR is Off(OF) only under OF = 10. -/
theorem offsetValue_withSr (hoff : h.f.off ≠ .sr) : offsetValue h { s with sr := v } = offsetValue h s := by
  cases hf : h.f.off with
  | none => rw [offsetValue_of_none hf, offsetValue_of_none hf]
  | pc => rw [offsetValue_of_pc hf, offsetValue_of_pc hf]; rfl
  | sr => exact absurd hf hoff
  | br => rw [offsetValue_of_br hf, offsetValue_of_br hf]

/-- BR is Off(OF) only under OF = 11. -/
theorem offsetValue_withBr (hoff : h.f.off ≠ .br) : offsetValue h { s with br := v } = offsetValue h s := by
  cases hf : h.f.off with
  | none => rw [offsetValue_of_none hf, offsetValue_of_none hf]
  | pc => rw [offsetValue_of_pc hf, offsetValue_of_pc hf]; rfl
  | sr => rw [offsetValue_of_sr hf, offsetValue_of_sr hf]
  | br => exact absurd hf hoff
end

/-- Settles O33: without `,X` the mode reads the same under another XR, and so for `,Y`. -/
theorem indexRegistersReadOnlyWhereWritten : Obligations.IndexRegistersReadOnlyWhereWritten := by
  intro i s v
  refine ⟨fun hX => exec_map (fun t => { t with xr := v }) (modeResult_congr ?_) fun r => ?_,
    fun hY => exec_map (fun t => { t with yr := v }) (modeResult_congr ?_) fun r => ?_⟩
  · exact ⟨rfl, rfl, rfl, fun h => absurd h hX, fun _ => rfl, fun _ => rfl, fun _ => rfl⟩
  · cases i <;> rfl
  · exact ⟨rfl, rfl, rfl, fun _ => rfl, fun h => absurd h hY, fun _ => rfl, fun _ => rfl⟩
  · cases i <;> rfl

/-- Settles O34: as O33, with the register's own use in `SameReads`; the accumulator has none there. -/
theorem otherRegistersReadOnlyWhereSelected : Obligations.OtherRegistersReadOnlyWhereSelected := by
  intro i s v
  refine ⟨fun hE => exec_map (fun t => { t with e := v }) (modeResult_congr ?_) fun r => ?_,
    fun hSr => exec_map (fun t => { t with sr := v }) (modeResult_congr ?_) fun r => ?_,
    fun hBr => exec_map (fun t => { t with br := v }) (modeResult_congr ?_) fun r => ?_,
    fun hAcc => exec_map (fun t => { t with acc := v }) (modeResult_congr ?_) fun r => ?_⟩
  · exact ⟨rfl, rfl, rfl, fun _ => rfl, fun _ => rfl, fun h => absurd h hE, fun _ => rfl⟩
  · cases i <;> rfl
  · exact ⟨rfl, rfl, offsetValue_withSr s v hSr, fun _ => rfl, fun _ => rfl, fun _ => rfl, fun _ => rfl⟩
  · cases i <;> rfl
  · exact ⟨rfl, rfl, offsetValue_withBr s v hBr, fun _ => rfl, fun _ => rfl, fun _ => rfl, fun _ => rfl⟩
  · cases i <;> rfl
  · exact ⟨rfl, rfl, rfl, fun _ => rfl, fun _ => rfl, fun _ => rfl, fun _ => rfl⟩
  · rw [beforeDelivery_of_ne hAcc, beforeDelivery_of_ne hAcc]
    rfl

/-- Settles O35: a mode that is not indirect reads the same under another memory. -/
theorem onlyIndirectModesReadMemory : Obligations.OnlyIndirectModesReadMemory := by
  intro i s m hind
  refine exec_map (fun t => { t with mem := m }) (modeResult_congr ?_) fun r => ?_
  · exact ⟨rfl, rfl, rfl, fun _ => rfl, fun _ => rfl, fun _ => rfl, fun h => absurd (hind.symm.trans h) nofun⟩
  · cases i <;> rfl

/-! ### RS -/

/-- A row that admits every RS selects its mode under each. -/
theorem resolve_of_rs_any {op : OpClass} {base : Base} {q am : Bool} {r : RS} {m : Mode} (hrs : (modeRow m).rs = .any)
    (r' : RS) (h : resolve op base q am r = .ok m) : resolve op base q am r' = .ok m := by
  obtain ⟨hbase, hq, hop, ham, -⟩ := resolve_ok_iff.1 h
  exact resolve_ok_iff.2 ⟨hbase, hq, hop, ham, by rw [hrs]; rfl⟩

/-- A mode whose row admits every RS gives the same result under each: RelBase, which is taken with RS, is none of its
inputs, and PCv is taken with RS erased. -/
theorem modeResult_of_rs_any {h : Head} (hrs : (modeRow h.mode).rs = .any) (r : RS) (v : Nat) (s : State) :
    modeResult (mkInstr { h with f := { h.f with rs := r } } v) s = modeResult (mkInstr h v) s := by
  obtain ⟨m, op, f⟩ := h
  cases m
  case immediate | immediate16 | immediate32 | immediate64 | relative | relative16 | relative32 | relative64
      | relativeBsr | relative16Bsr | relative32Bsr | relative64Bsr => cases hrs
  all_goals rfl

/-- RS is not asked for before delivery. -/
theorem beforeDelivery_rs (h : Head) (r : RS) (v : Nat) (s : State) :
    beforeDelivery (mkInstr { h with f := { h.f with rs := r } } v) s = beforeDelivery (mkInstr h v) s := by
  obtain ⟨m, op, f⟩ := h
  cases m <;> rfl

/-- Settles O36: resolution by the row, the run by its result and the state it is delivered in, neither of which RS
changes. -/
theorem rsDoesNotAffectAddresses : Obligations.RsDoesNotAffectAddresses := by
  refine ⟨fun op base q am r r' m hrs h => resolve_of_rs_any hrs r' h, fun h v r s t hrs hexec => ?_⟩
  obtain ⟨res, hres, rfl⟩ := exec_next hexec
  rw [exec_eq_complete, modeResult_of_rs_any hrs, beforeDelivery_rs h r v s, hres, (parts_mkInstr _ _).1,
    (parts_mkInstr _ _).1]
  obtain ⟨-, -, -, -, -, -, -, -, hdel, -⟩ := beforeDelivery_frame (mkInstr h v) s
  refine ⟨⟨h.op, h.f.rs, res⟩, by simp [hdel], ?_⟩
  rw [← hdel]
  rfl

end Sys2Proof.Machine
end

section
/-!
PROOF. O15 to O18, O20, O21, memory (R25 to R28, R40, R156). `memRead_ok_iff` says what a read answers, byte by byte;
the written bytes are described by what reads inside and outside of them give.
-/

namespace Sys2Proof.Machine

/-! ### One byte -/

section
variable {s : State} {k : AccessKind} {a : Word}

theorem byteAt_of_memFault (h : memFaultAt s.platform a k = true) : s.byteAt k a = .error (.memFault s.pc a k) := by
  simp [State.byteAt, h]

theorem byteAt_of_value {b : Byte} (h : memFaultAt s.platform a k = false) (hb : s.mem.read a.toNat = some b) :
    s.byteAt k a = .ok b := by
  simp [State.byteAt, h, hb]
end

/-- Settles O15: the hook first, then the byte's value; at reset the hook has no range. -/
theorem memFaultHook : Obligations.MemFaultHook :=
  ⟨fun _ _ _ h => byteAt_of_memFault h, fun _ _ _ h _ hb => byteAt_of_value h hb, fun _ _ => rfl⟩

/-! ### The value of bytes -/

theorem littleValue_append (xs ys : List Byte) :
    littleValue (xs ++ ys) = littleValue xs + 2 ^ (8 * xs.length) * littleValue ys := by
  induction xs with
  | nil => simp [littleValue]
  | cons x xs ih =>
    rw [List.cons_append, littleValue, littleValue, ih, List.length_cons, Nat.mul_succ, Nat.pow_add]
    ring

/-- The first `n` bytes are the low part of the value. -/
theorem littleValue_take {bs : List Byte} {n : Nat} (h : n ≤ bs.length) :
    littleValue (bs.take n) = littleValue bs % 2 ^ (8 * n) := by
  have hlen : (bs.take n).length = n := List.length_take_of_le h
  have hlt := littleValue_lt (bs.take n)
  have hsplit := littleValue_append (bs.take n) (bs.drop n)
  rw [List.take_append_drop, hlen] at hsplit
  rw [hlen] at hlt
  rw [hsplit, Nat.add_mul_mod_self_left, Nat.mod_eq_of_lt hlt]

/-- The value of `n` bytes is the sum of byte `i` times `256^i` (R25). -/
theorem littleValue_map_range (b : Nat → Byte) (n : Nat) :
    littleValue ((List.range n).map b) = ∑ i ∈ Finset.range n, (b i).toNat * 256 ^ i := by
  induction n with
  | zero => rfl
  | succ n ih =>
    have hpow : 2 ^ (8 * n) = 256 ^ n := Nat.pow_mul 2 8 n
    rw [List.range_succ, List.map_append, littleValue_append, ih, Finset.sum_range_succ]
    simp [littleValue, hpow, Nat.mul_comm (b n).toNat]

/-! ### Reads -/

section
variable {s : State} {k : AccessKind} {a v : Word} {n : Nat} {e : Fault}

/-- A read is the value of the bytes at its addresses. -/
theorem memRead_ok_iff_bytesAt : s.memRead k a n = .ok v ↔
    ∃ bs, s.bytesAt k (accessAddresses k a n) = .ok bs ∧ v = BitVec.ofNat 64 (littleValue bs) := by
  unfold State.memRead
  cases s.bytesAt k (accessAddresses k a n) with
  | error e => simp
  | ok bs => simp [assemble, params, eq_comm]

/-- A read faults as its bytes do. -/
theorem memRead_error_iff_bytesAt :
    s.memRead k a n = .error e ↔ s.bytesAt k (accessAddresses k a n) = .error e := by
  unfold State.memRead
  cases s.bytesAt k (accessAddresses k a n) with
  | error e' => simp
  | ok bs => simp

/-- The bytes of an access stand at consecutive addresses (R28). -/
theorem bytesAt_access_ok_iff {bs : List Byte} : s.bytesAt k (accessAddresses k a n) = .ok bs ↔
    bs.length = n ∧ ∀ i (hi : i < bs.length), s.byteAt k (a + BitVec.ofNat 64 i) = .ok bs[i] := by
  rw [State.bytesAt_ok_iff, accessAddresses_eq, List.forall₂_iff_get]
  simp only [List.length_map, List.length_range, List.get_eq_getElem, List.getElem_map, List.getElem_range]
  exact ⟨fun ⟨hlen, h⟩ => ⟨hlen.symm, fun i hi => h i (hlen ▸ hi) hi⟩,
    fun ⟨hlen, h⟩ => ⟨hlen.symm, fun i _ hi => h i hi⟩⟩

/-- A read answers where each of its bytes can be read, and then with their little-endian value (R25, R27). -/
theorem memRead_ok_iff : s.memRead k a n = .ok v ↔
    ∃ bs : List Byte, bs.length = n ∧ (∀ i (hi : i < bs.length), s.byteAt k (a + BitVec.ofNat 64 i) = .ok bs[i]) ∧
      v = BitVec.ofNat 64 (littleValue bs) := by
  simp only [memRead_ok_iff_bytesAt, bytesAt_access_ok_iff, and_assoc]

/-- A read of bytes that can all be read gives their value. -/
theorem memRead_of_bytes (b : Nat → Byte) (hb : ∀ i < n, s.byteAt k (a + BitVec.ofNat 64 i) = .ok (b i)) :
    s.memRead k a n = .ok (BitVec.ofNat 64 (∑ i ∈ Finset.range n, (b i).toNat * 256 ^ i)) := by
  refine memRead_ok_iff.2 ⟨(List.range n).map b, by simp, fun i hi => ?_, by rw [littleValue_map_range]⟩
  simpa using hb i (by simpa using hi)

/-- A shorter read at the same address gives the low part (R26). -/
theorem memRead_low {n' : Nat} (h : s.memRead k a n = .ok v) (hn : n ≤ 8) (hle : n' ≤ n) :
    s.memRead k a n' = .ok (BitVec.ofNat 64 (v.toNat % 2 ^ (8 * n'))) := by
  obtain ⟨bs, hlen, hbs, rfl⟩ := memRead_ok_iff.1 h
  have hlt : littleValue bs < 2 ^ 64 :=
    (littleValue_lt bs).trans_le (Nat.pow_le_pow_right (by decide) (by omega))
  refine memRead_ok_iff.2 ⟨bs.take n', by simp; omega, fun i hi => ?_, ?_⟩
  · rw [List.getElem_take]
    exact hbs i _
  · rw [littleValue_take (by omega), BitVec.toNat_ofNat, Nat.mod_eq_of_lt hlt]

/-- The bytes at a list of addresses fault with the first that cannot be read (R156). -/
theorem bytesAt_error_iff {as : List Word} : s.bytesAt k as = .error e ↔
    ∃ i, ∃ hi : i < as.length, s.byteAt k as[i] = .error e ∧
      ∀ j (hj : j < i), ∃ b, s.byteAt k as[j] = .ok b := by
  induction as with
  | nil => simp [State.bytesAt]
  | cons x as ih =>
    cases hx : s.byteAt k x with
    | error e' =>
      simp only [State.bytesAt, hx]
      constructor
      · rintro ⟨⟩
        exact ⟨0, by simp, hx, fun j hj => absurd hj (Nat.not_lt_zero j)⟩
      · rintro ⟨_ | i, hi, hbyte, hbefore⟩
        · cases hx.symm.trans hbyte
          rfl
        · obtain ⟨b, hb⟩ := hbefore 0 (by omega)
          cases hx.symm.trans hb
    | ok b =>
      have hcons : s.bytesAt k (x :: as) = .error e ↔ s.bytesAt k as = .error e := by
        simp only [State.bytesAt, hx]
        cases s.bytesAt k as <;> simp
      rw [hcons, ih]
      constructor
      · rintro ⟨i, hi, hbyte, hbefore⟩
        refine ⟨i + 1, by simpa using hi, hbyte, fun j hj => ?_⟩
        cases j with
        | zero => exact ⟨b, hx⟩
        | succ j => exact hbefore j (by omega)
      · rintro ⟨_ | i, hi, hbyte, hbefore⟩
        · cases hx.symm.trans hbyte
        · exact ⟨i, by simpa using hi, hbyte, fun j hj => hbefore (j + 1) (by omega)⟩
end

/-- Settles O16: 256 is 2^8. -/
theorem memReadValue : Obligations.MemReadValue := by
  intro s k a n b _ hb
  simpa [pow_mul] using memRead_of_bytes b hb

/-- Settles O17: the sum by `memRead_of_bytes`, the two halves by `memRead_low`. -/
theorem addressReadByteOrder : Obligations.AddressReadByteOrder :=
  ⟨fun _ _ b _ _ hb => memRead_of_bytes b hb, fun _ _ _ h => memRead_low h (by decide) (by decide),
    fun _ _ _ h => memRead_low h (by decide) (by decide)⟩

/-- Settles O18: `bytesAt_error_iff` at consecutive addresses. -/
theorem memReadFault : Obligations.MemReadFault := by
  intro s k a n e
  rw [memRead_error_iff_bytesAt, bytesAt_error_iff, accessAddresses_eq]
  simp [and_left_comm]

/-! ### Writes -/

/-- Up to 2^64 bytes on addresses do not come round. -/
theorem ne_add_ofNat (a : Word) {i : Nat} (h0 : 0 < i) (hi : i < 2 ^ 64) : a ≠ a + BitVec.ofNat 64 i := by
  intro h
  have hnat := congrArg BitVec.toNat h
  have ha := a.isLt
  simp only [BitVec.toNat_add, BitVec.toNat_ofNat] at hnat
  omega

section
variable {m : Mem} {a x : Word} {bs : List Byte}

/-- Consecutive bytes leave every other address as it was. -/
theorem read_writeBytes_outside (h : ∀ i < bs.length, x ≠ a + BitVec.ofNat 64 i) :
    (m.writeBytes a bs).read x.toNat = m.read x.toNat := by
  induction bs generalizing m a with
  | nil => rfl
  | cons b bs ih =>
    have h0 : x ≠ a := by simpa using h 0 (by simp)
    rw [Mem.writeBytes, ih fun i hi => by rw [add64_one_add]; exact h (i + 1) (by simpa using hi), Mem.read_write,
      if_neg fun hx => h0 (BitVec.eq_of_toNat_eq hx)]

/-- Of at most 2^64 consecutive bytes each stands at its address. -/
theorem read_writeBytes_inside (hlen : bs.length ≤ 2 ^ 64) (i : Nat) (hi : i < bs.length) :
    (m.writeBytes a bs).read (a + BitVec.ofNat 64 i).toNat = some bs[i] := by
  induction bs generalizing m a i with
  | nil => cases hi
  | cons b bs ih =>
    cases i with
    | zero =>
      have houtside : ∀ i < bs.length, a ≠ add64 a 1 + BitVec.ofNat 64 i := fun i hi => by
        rw [add64_one_add]
        exact ne_add_ofNat a (Nat.succ_pos i) (Nat.lt_of_le_of_lt (Nat.succ_le_of_lt hi) hlen)
      have hread : (m.writeBytes a (b :: bs)).read a.toNat = some b := by
        rw [Mem.writeBytes, read_writeBytes_outside houtside, Mem.read_write, if_pos rfl]
      simpa using hread
    | succ i =>
      rw [← add64_one_add]
      exact ih (by simp at hlen; omega) i (by simpa using hi)
end

/-- Settles O21: MemWrite writes `n` consecutive bytes. -/
theorem memWriteFrame : Obligations.MemWriteFrame := by
  intro s a v n x h
  exact read_writeBytes_outside fun i hi => h i (by simpa [bytesOf_length] using hi)

/-- Settles O20: the bytes read back are the bytes written. -/
theorem memReadAfterMemWrite : Obligations.MemReadAfterMemWrite := by
  intro s k a v n hn hfault
  have hlen : (bytesOf params.byteOrder n v.toNat).length = n := bytesOf_length _ _ _
  refine memRead_ok_iff.2 ⟨bytesOf params.byteOrder n v.toNat, hlen, fun i hi => ?_, ?_⟩
  · exact byteAt_of_value (hfault i (hlen ▸ hi)) (read_writeBytes_inside (by rw [hlen]; omega) i hi)
  · exact congrArg _ (littleValue_littleBytes n v.toNat).symm

end Sys2Proof.Machine
end

section
/-!
PROOF. O1 to O8, O13, O14, O22, O23, O25 to O28, O38: what each mode that reads no address hands over, and where PC goes. One
lemma per shape of mode and kind of operation; then the index, the offset register and the program-counter values.
-/

namespace Sys2Proof.Machine

/-! ### Where PC goes, by shape of mode -/

section
variable {h : Head} {p a : Word} {ix : Index} {s : State}

/-- An instruction whose mode gave `r` hands it over, with the PC `pcAfter` says. -/
theorem complete_ok (h : Head) (r : ModeResult) (s : State) : complete s h (.ok r) =
    .next (s.handed (pcAfter h.op (s.past h.f (paramLen h.mode)) r s.free) h.op h.f.rs r) := by
  rw [complete, State.deliver_eq_handed, nextAddress_eq_past]

theorem runImmediate_next (h : Head) (v : Nat) (s : State) : runImmediate h v s =
    .next (s.handed (s.past h.f (paramLen h.mode)) h.op h.f.rs (.imm v (paramLen h.mode))) :=
  complete_ok h _ s

/-- A data operation in a direct mode goes on to the next instruction. -/
theorem runDirect_data (hop : h.op = .data) (ha : directAddress h p ix s = a) :
    runDirect h p ix s = .next (s.handed (s.past h.f (paramLen h.mode)) h.op h.f.rs (.ea a)) := by
  rw [runDirect, ha, complete_ok, hop]
  rfl

/-- A jump in the Address family goes to its target (assumption 13). -/
theorem runAddress_jump (hop : h.op = .jump) (ha : offsetBase h p s = a) :
    runAddress h p s = .next (s.handed a h.op h.f.rs (.target a)) := by
  rw [runAddress, ha, complete_ok, hop]
  rfl

/-- A branch goes to its target or to the next instruction, by the free value (assumption 14). -/
theorem runRelative_branch (hop : h.op = .branch) (ha : relBase h s + p = a) : runRelative h p s = .next (s.handed
    (if Config.branchTaken s.free then a else s.past h.f (paramLen h.mode)) h.op h.f.rs (.target a)) := by
  rw [runRelative, relativeTarget, add64, ha, complete_ok, hop]
  rfl

/-- BSR goes to its target (assumption 13). -/
theorem runRelative_bsr (hop : h.op = .bsr) (ha : relBase h s + p = a) :
    runRelative h p s = .next (s.handed a h.op h.f.rs (.target a)) := by
  rw [runRelative, relativeTarget, add64, ha, complete_ok, hop]
  rfl
end

section
variable (h : Head) (p : Word) (s : State)

@[simp] theorem directAddress_none : directAddress h p .none s = p + offsetValue h s := rfl

@[simp] theorem directAddress_x : directAddress h p .x s = p + offsetValue h s + s.xr := by
  simp [directAddress, offsetBase_eq]

@[simp] theorem directAddress_y : directAddress h p .y s = p + offsetValue h s + s.yr := by
  simp [directAddress, offsetBase_eq]
end

/-- Settles O1: `complete_ok`, with what `pcAfter` says of None. -/
theorem impliedCompletes : Obligations.ImpliedCompletes :=
  fun _ _ _ => complete_ok _ _ _

/-- Settles O2: `complete_ok`, with what `pcAfter` says of Acc. -/
theorem accumulatorCompletes : Obligations.AccumulatorCompletes :=
  fun _ _ _ => complete_ok _ _ _

/-- Settles O3: the address is the base alone. -/
theorem addressModesComplete : Obligations.AddressModesComplete := by
  refine fun f s => ⟨fun p => ?abs, fun p => ?long, fun p => ?quad⟩
  case abs | long => exact runAddress_jump rfl rfl
  case quad => exact runAddress_jump rfl (by simp [offsetBase_eq])

/-- Settles O4: each width by the one lemma on immediates. -/
theorem immediatesComplete : Obligations.ImmediatesComplete :=
  fun _ _ => ⟨fun _ => runImmediate_next _ _ _, fun _ => runImmediate_next _ _ _, fun _ => runImmediate_next _ _ _,
    fun _ => runImmediate_next _ _ _⟩

/-- Settles O5: a register is as wide as an address. -/
theorem eIndirectCompletes : Obligations.EIndirectCompletes := by
  intro f s
  have he : zext64 s.e = s.e := BitVec.setWidth_eq s.e
  have hrun := complete_ok ⟨.eIndirect, .data, f⟩ (.ea (zext64 s.e)) s
  rwa [he] at hrun

/-- Settles O6: `runDirect_data` with the address without an index. -/
theorem directModesComplete : Obligations.DirectModesComplete :=
  fun _ _ => ⟨fun _ => runDirect_data rfl (by simp), fun _ => runDirect_data rfl (by simp),
    fun _ => runDirect_data rfl (by simp), fun _ => runDirect_data rfl (by simp)⟩

/-- Settles O7: as O6, with X in the address. -/
theorem directXModesComplete : Obligations.DirectXModesComplete :=
  fun _ _ => ⟨fun _ => runDirect_data rfl (by simp), fun _ => runDirect_data rfl (by simp),
    fun _ => runDirect_data rfl (by simp), fun _ => runDirect_data rfl (by simp)⟩

/-- Settles O8: as O6, with Y in the address. -/
theorem directYModesComplete : Obligations.DirectYModesComplete :=
  fun _ _ => ⟨fun _ => runDirect_data rfl (by simp), fun _ => runDirect_data rfl (by simp),
    fun _ => runDirect_data rfl (by simp), fun _ => runDirect_data rfl (by simp)⟩

/-! ### Relative modes -/

/-- A 64-bit offset needs no extension. -/
theorem sext64_word (p : Word) : sext64 p = p := BitVec.signExtend_eq p

/-- Settles O13: `runRelative_branch`, the extended parameter as the offset. -/
theorem branchModesComplete : Obligations.BranchModesComplete := by
  refine fun f s => ⟨fun p => ?rel, fun p => ?wide, fun p => ?long, fun p => ?quad⟩
  case rel | wide | long => exact runRelative_branch rfl rfl
  case quad => exact runRelative_branch rfl (by rw [sext64_word])

/-- Settles O14: as O13, for BSR. -/
theorem bsrModesComplete : Obligations.BsrModesComplete := by
  refine fun f s => ⟨fun p => ?rel, fun p => ?wide, fun p => ?long, fun p => ?quad⟩
  case rel | wide | long => exact runRelative_bsr rfl rfl
  case quad => exact runRelative_bsr rfl (by rw [sext64_word])

/-- Sign extension to 64 bits keeps the two's-complement number (R5, D12). -/
theorem toInt_sext64 {k : Nat} (hk : k ≤ 64) (p : BitVec k) : (sext64 p).toInt = p.toInt :=
  BitVec.toInt_signExtend_of_le hk

/-- An extended `k`-bit offset lies between -2^(k-1) and 2^(k-1) - 1. -/
theorem sext64_range {k : Nat} (hk : k ≤ 64) (p : BitVec k) :
    -2 ^ (k - 1) ≤ (sext64 p).toInt ∧ (sext64 p).toInt ≤ 2 ^ (k - 1) - 1 := by
  rw [toInt_sext64 hk]
  exact ⟨BitVec.le_toInt p, Int.le_sub_one_of_lt BitVec.toInt_lt⟩

/-- Every number in that range is an extended `k`-bit offset. -/
theorem exists_sext64_eq {k : Nat} (h0 : 0 < k) (hk : k ≤ 64) {z : Int} (hlo : -2 ^ (k - 1) ≤ z)
    (hhi : z ≤ 2 ^ (k - 1) - 1) : ∃ p : BitVec k, (sext64 p).toInt = z :=
  ⟨BitVec.ofInt k z, by rw [toInt_sext64 hk, BitVec.toInt_ofInt_eq_self h0 hlo (by omega)]⟩

/-- Settles O28: the extended parameter is `BitVec.ofInt 64` of its two's-complement number by definition. -/
theorem relativeOffsetRanges : Obligations.RelativeOffsetRanges := by
  refine ⟨fun k hk => ?range, fun f s => ⟨?_, ?_, ?_, ?_, ?_, ?_, ?_, ?_⟩⟩
  case range =>
    obtain ⟨h0, h64⟩ : 0 < k ∧ k ≤ 64 := by omega
    exact ⟨sext64_range h64, fun z hlo hhi => exists_sext64_eq h0 h64 hlo hhi⟩
  all_goals exact fun p => ⟨_, complete_ok _ _ _⟩

/-! ### Index, offset register, program-counter values -/

/-- Settles O22: `idxVal` extends a word to its own width. -/
theorem indexIsWholeRegister : Obligations.IndexIsWholeRegister :=
  fun _ _ s => ⟨rfl, by rw [idxVal_eq], rfl, by rw [idxVal_eq], rfl, rfl⟩

section
variable {h h' : Head} {p p' : Word} {s : State}

/-- A direct address is a function of where it starts. -/
theorem directAddress_of_base (hb : offsetBase h p s = offsetBase h' p' s) (ix : Index) :
    directAddress h p ix s = directAddress h' p' ix s := by
  cases ix with
  | none => exact hb
  | x | y => simp only [directAddress, registerSum_eq, hb]

/-- So is the location of an indirect one, and what is read there. -/
theorem indirectResult_of_base (hb : offsetBase h p s = offsetBase h' p' s) (ix : Index) (w : Nat) :
    indirectResult h p w ix s = indirectResult h' p' w ix s := by
  have hloc : pointerLocation h p ix s = pointerLocation h' p' ix s := by
    cases ix with
    | none | y => exact hb
    | x => simp only [pointerLocation, registerSum_eq, hb]
  rw [indirectResult, hloc]
  rfl
end

/-- Settles O23: without OF an address starts at its parameter, here the base itself. -/
theorem offsetRegisterTable : Obligations.OffsetRegisterTable := by
  intro h p s
  have hplain : offsetBase { h with f := { h.f with off := .none } } (p + offsetValue h s) s = offsetBase h p s :=
    (offsetBase_of_none rfl _ s).trans (offsetBase_eq h p s).symm
  exact ⟨rfl, rfl, hplain, fun ix => directAddress_of_base hplain.symm ix,
    fun ix w => indirectResult_of_base hplain.symm ix w⟩

/-- The parameter follows prefix and opcode (R41). -/
theorem paramAddress_eq (h : Head) (start : Word) : paramAddress h start = start + BitVec.ofNat 64 (h.f.len + 1) := by
  rw [paramAddress, opcodeAddress, add64, add64, BitVec.ofNat_add, BitVec.add_assoc]
  rfl

/-- Settles O25: one candidate point per case. -/
theorem pcValueCandidates : Obligations.PcValueCandidates := by
  intro h s
  unfold pcValue
  refine ⟨?start, ?opcode, ?param, ?next, ?unstated⟩ <;> intro hbase <;> rw [hbase]
  case opcode => rfl
  case param => exact paramAddress_eq h s.pc
  case next => exact nextAddress_eq_past s h

/-- Settles O26: as O25, for RelBase. -/
theorem relBaseCandidates : Obligations.RelBaseCandidates := by
  intro h s
  unfold relBase
  refine ⟨?start, ?opcode, ?param, ?next, ?unstated⟩ <;> intro hbase <;> rw [hbase]
  case opcode => rfl
  case param => exact paramAddress_eq h s.pc
  case next => exact nextAddress_eq_past s h

/-- Settles O27: the sums are those of 64-bit words. -/
theorem offsetSumsDoNotWrapInside : Obligations.OffsetSumsDoNotWrapInside := by
  refine ⟨fun f p s hf => ⟨zext64 p + s.br + s.xr, runDirect_data rfl ?_, ?_⟩, fun f s hf hx => runDirect_data rfl ?_,
    fun f s hf hsr => runDirect_data rfl ?_⟩
  · rw [directAddress_x, offsetValue_of_br hf]
  · have hp := p.isLt
    simp only [BitVec.toNat_add, BitVec.toNat_setWidth]
    omega
  · rw [directAddress_x, offsetValue_of_br hf, hx, BitVec.add_comm (zext64 _), BitVec.add_assoc]
    rfl
  · rw [directAddress_none, offsetValue_of_sr hf, hsr]
    rfl

/-! ### AM on the direct bases -/

/-- A mirrored opcode of a direct base is refused (R61, assumption 24). -/
theorem resolve_direct_mirrored (base : Base) (hb : base ∈ [Base.zp, .zpX, .zpY, .abs, .absX, .absY]) (am : Bool)
    (rs : RS) : resolve .data base true am rs = .error .noSuchMode := by
  fin_cases hb <;> rfl

section
variable {h : Head} {p a : Word} {ix : Index} {s : State}

/-- A direct mode hands over its address. -/
theorem runDirect_handed (ha : directAddress h p ix s = a) :
    ∃ pc, runDirect h p ix s = .next (s.handed pc h.op h.f.rs (.ea a)) :=
  ⟨_, by rw [runDirect, ha, complete_ok]⟩
end

/-- Settles O38: the six resolutions are entries of the table, the runs are `runDirect_handed`. -/
theorem amTranslationOfDirectModes : Obligations.AmTranslationOfDirectModes := by
  refine fun rs f s => ⟨fun base hb am => resolve_direct_mirrored base hb am rs, ?_, ?_, ?_, ?_, ?_, ?_⟩
  all_goals exact ⟨rfl, rfl, rfl, fun p => runDirect_handed (by simp)⟩

end Sys2Proof.Machine
end

section
/-!
PROOF. O9 to O12 and O19: the eighteen indirect modes, where their address can be read and where it cannot (R123, R153).
-/

namespace Sys2Proof.Machine

section
variable {h : Head} {p v : Word} {w : Nat} {ix : Index} {s : State} {e : Fault}

/-- Where its address can be read an indirect mode hands over the effective address formed from it; a jump goes there
(R61, assumption 13). -/
theorem runIndirect_completes (hv : s.memRead .addressRead (pointerLocation h p ix s) w = .ok v) :
    runIndirect h p w ix s = .next (s.handed (if h.op = .jump then indirectAddress v ix s
      else s.past h.f (paramLen h.mode)) h.op h.f.rs (.ea (indirectAddress v ix s))) := by
  rw [runIndirect, indirectResult, hv]
  exact complete_ok h _ s

theorem runIndirect_none_completes (hv : s.memRead .addressRead (p + offsetValue h s) w = .ok v) :
    runIndirect h p w .none s =
      .next (s.handed (if h.op = .jump then v else s.past h.f (paramLen h.mode)) h.op h.f.rs (.ea v)) :=
  runIndirect_completes hv

theorem runIndirect_x_completes (hv : s.memRead .addressRead (p + offsetValue h s + s.xr) w = .ok v) :
    runIndirect h p w .x s =
      .next (s.handed (if h.op = .jump then v else s.past h.f (paramLen h.mode)) h.op h.f.rs (.ea v)) :=
  runIndirect_completes (pointerLocation_x h p s ▸ hv)

theorem runIndirect_y_completes (hv : s.memRead .addressRead (p + offsetValue h s) w = .ok v) :
    runIndirect h p w .y s = .next (s.handed (if h.op = .jump then v + s.yr else s.past h.f (paramLen h.mode)) h.op
      h.f.rs (.ea (v + s.yr))) := by
  simpa using runIndirect_completes (ix := .y) hv

theorem runIndirect_x_error (he : s.memRead .addressRead (p + offsetValue h s + s.xr) w = .error e) :
    runIndirect h p w .x s = .fault e :=
  runIndirect_error (pointerLocation_x h p s ▸ he)
end

/-- Settles O9: each form by the lemma for its index. -/
theorem indirectWordModesComplete : Obligations.IndirectWordModesComplete := by
  refine fun op f s v _ => ⟨fun p hv => ?zp, fun p hv => ?zpY, fun p hv => ?zpX, fun p hv => ?abs, fun p hv => ?absY,
    fun p hv => ?absX⟩
  case zp | abs => exact runIndirect_none_completes hv
  case zpY | absY => exact runIndirect_y_completes hv
  case zpX | absX => exact runIndirect_x_completes hv

/-- Settles O10: as O9. -/
theorem indirectLongModesComplete : Obligations.IndirectLongModesComplete := by
  refine fun op f s v _ => ⟨fun p hv => ?zp, fun p hv => ?zpY, fun p hv => ?zpX, fun p hv => ?abs, fun p hv => ?absY,
    fun p hv => ?absX⟩
  case zp | abs => exact runIndirect_none_completes hv
  case zpY | absY => exact runIndirect_y_completes hv
  case zpX | absX => exact runIndirect_x_completes hv

/-- Settles O11: as O9. -/
theorem indirectQuadModesComplete : Obligations.IndirectQuadModesComplete := by
  refine fun op f s v _ => ⟨fun p hv => ?zp, fun p hv => ?zpY, fun p hv => ?zpX, fun p hv => ?abs, fun p hv => ?absY,
    fun p hv => ?absX⟩
  case zp | abs => exact runIndirect_none_completes hv
  case zpY | absY => exact runIndirect_y_completes hv
  case zpX | absX => exact runIndirect_x_completes hv

/-- Settles O12: the location of the post-indexed forms is that of the plain ones. -/
theorem indirectModesFault : Obligations.IndirectModesFault := by
  refine fun op f s e => ⟨?zp16, ?zpY16, ?zpX16, ?abs16, ?absY16, ?absX16, ?zp32, ?zpY32, ?zpX32, ?abs32, ?absY32,
    ?absX32, ?zp64, ?zpY64, ?zpX64, ?abs64, ?absY64, ?absX64⟩
  case zpX16 | absX16 | zpX32 | absX32 | zpX64 | absX64 => exact fun p he => runIndirect_x_error he
  all_goals exact fun p he => runIndirect_error he

/-- Two bytes that can be read are the address they make. -/
theorem memRead_two {s : State} {k : AccessKind} {a : Word} {x y : Byte} (hx : s.byteAt k a = .ok x)
    (hy : s.byteAt k (a + 1) = .ok y) :
    s.memRead k a 2 = .ok (BitVec.ofNat 64 (x.toNat + 256 * y.toNat)) := by
  refine memRead_ok_iff.2 ⟨[x, y], rfl, fun i hi => ?_, rfl⟩
  match i, hi with
  | 0, _ => simpa using hx
  | 1, _ => exact hy

/-- Settles O19: without OF the location is the parameter. -/
theorem pointerBytesAreConsecutive : Obligations.PointerBytesAreConsecutive := by
  refine ⟨fun a n => accessAddresses_eq _ a n, fun f s x y hf hx hy => ?_⟩
  have hread : s.memRead .addressRead 0xFF 2 = .ok (BitVec.ofNat 64 (x.toNat + 256 * y.toNat)) := memRead_two hx hy
  have hloc : (0xFF : Word) + offsetValue ⟨.zeropageIndirect16, .data, f⟩ s = 0xFF := by
    rw [offsetValue_of_none hf]
    rfl
  exact runIndirect_none_completes (hloc.symm ▸ hread)

end Sys2Proof.Machine
end

section
/-!
PROOF. O54 to O57 and O60: fetching, the step and the reset state (R9, R36, R49, R156).
-/

namespace Sys2Proof.Machine

section
variable {c : Platform} {bs rest : List Byte} {i : Instr}

/-- A decoded instruction is no longer than the longest the platform's maps allow. -/
theorem decode_length_le (h : decode c bs = .ok (i, rest)) :
    (instrHead i).f.len + 1 + paramLen (instrHead i).mode ≤ Platform.longest c := by
  obtain ⟨f, b, r, o, m, hp, -, -, -, rfl, -⟩ := decode_ok h
  have hpfx := decodePfx_len_le hp
  have hparam := paramLen_le m
  rw [(parts_mkInstr _ _).1, Platform.longest]
  simp only
  omega

/-- No resolution is refused for too few bytes. -/
theorem resolve_ne_truncated (op : OpClass) (base : Base) (q am : Bool) (rs : RS) :
    resolve op base q am rs ≠ .error .truncated := by
  cases base
  case zp | zpX | zpY | abs | absX | absY =>
    simp only [resolve, resolveDirect]
    split <;> simp
  case zpInd | zpIndY | zpXInd | absInd | absIndY | absXInd =>
    simp only [resolve, resolveIndirect]
    split
    · simp
    · split
      · split <;> simp
      · simp
  case rel | relwide =>
    simp only [resolve, resolveRelative]
    split
    case h_4 => simp
    all_goals split <;> simp
  case implied | accumulator | address | addressUnknown | imm | eind =>
    simp only [resolve, resolveNoAddress]
    split
    case h_1 | h_3 | h_5 | h_7 => simp
    all_goals split <;> simp

/-- Nor is a selection. -/
theorem classify_ne_truncated (o : OpcEntry) (f : Pfx) : classify o f ≠ .error .truncated := by
  unfold classify
  split
  case h_1 r hr => exact fun h => resolve_ne_truncated _ _ _ _ _ (hr.trans h)
  case h_2 => split <;> simp

/-- Bytes that are too few for an instruction are fewer than the longest instruction takes. -/
theorem decode_truncated_length (h : decode c bs = .error .truncated) : bs.length < Platform.longest c := by
  unfold decode at h
  rw [Platform.longest]
  split at h
  case h_1 hp =>
    have hshort := decodePfx_error_length hp
    omega
  case h_2 f hp =>
    have hlen := decodePfx_length hp
    have hpfx := decodePfx_len_le hp
    rw [List.length_nil] at hlen
    omega
  case h_3 f b r hp =>
    have hlen := decodePfx_length hp
    have hpfx := decodePfx_len_le hp
    rw [List.length_cons] at hlen
    split at h
    · cases h
    · split at h
      case h_1 hm => exact absurd (Except.error.inj h ▸ hm) (classify_ne_truncated _ _)
      case h_2 m _ =>
        have hparam := paramLen_le m
        split at h
        · omega
        · cases h
end

section
variable {s : State} {i : Instr} {r : Reject}

theorem step_of_decode {rest : List Byte} (h : decode s.platform s.fetchWindow = .ok (i, rest)) :
    step s = exec i s := by
  simp only [step, h]

theorem step_of_reject (h : decode s.platform s.fetchWindow = .error r) : step s = s.fetchFailure r := by
  simp only [step, h]

theorem fetchFailure_of_ne (h : r ≠ .truncated) : s.fetchFailure r = .refused (.undecodable s.pc r) := by
  cases r
  case truncated => exact absurd rfl h
  all_goals rfl

theorem fetchFailure_truncated {e : Fault} (h : s.byteAt .fetch s.fetchEnd = .error e) :
    s.fetchFailure .truncated = .fault e := by
  simp only [State.fetchFailure, h]
  rfl
end

/-- Each byte of the window is the one at its address. -/
theorem fetchWindow_getElem (s : State) (k : Nat) (hk : k < s.fetchWindow.length) :
    s.byteAt .fetch (s.pc + BitVec.ofNat 64 k) = .ok s.fetchWindow[k] :=
  s.fetchBytes_getElem _ s.pc k hk

/-- Settles O54: the instruction's bytes stand at the head of the window, and decoding reads no others. -/
theorem stepRunsDecodedInstruction : Obligations.StepRunsDecodedInstruction := by
  intro s bs i hdec hbytes
  have hlongest : bs.length ≤ Platform.longest s.platform :=
    (List.drop_eq_nil_iff.1 (decode_layout hdec).rest_eq.symm).trans (decode_length_le hdec)
  obtain ⟨more, hmore⟩ := s.fetchBytes_append _ s.pc bs hlongest hbytes
  have hwindow : s.fetchWindow = bs ++ more := hmore
  exact step_of_decode (hwindow ▸ decode_append more hdec)

/-- Settles O55: the parameter's bytes stand in the window after prefix and opcode, and each byte of the window is the
one at its address. -/
theorem parameterIsMemRead : Obligations.ParameterIsMemRead := by
  intro s i rest hdec
  have hlen := (decode_layout hdec).length_le
  have hparam := (decode_layout hdec).param
  have hpa : paramAddress (instrHead i) s.pc = s.pc + BitVec.ofNat 64 ((instrHead i).f.len + 1) := paramAddress_eq _ _
  refine ⟨fun hn => ?none, fun _ => ?read, hpa, rfl⟩
  case none =>
    have hn : paramLen (instrHead i).mode = 0 := hn
    rw [hparam, hn]
    rfl
  case read =>
    refine memRead_ok_iff.2 ⟨_, ?_, fun j hj => ?_, congrArg _ hparam⟩
    · rw [List.length_take, List.length_drop]
      omega
    · rw [List.getElem_take, List.getElem_drop, ← fetchWindow_getElem, BitVec.ofNat_add _ j, ← BitVec.add_assoc,
        ← hpa]
      rfl

/-- Settles O56: only `truncated` asks memory why the bytes end. -/
theorem stepRefusesUndecodable : Obligations.StepRefusesUndecodable :=
  fun _ _ hdec hr => (step_of_reject hdec).trans (fetchFailure_of_ne hr)

/-- Settles O57: the window is shorter than it may be, so fetching stopped at a byte that cannot be read. -/
theorem stepFaultsWhereFetchStops : Obligations.StepFaultsWhereFetchStops := by
  intro s hdec
  obtain ⟨e, he⟩ := s.fetchBytes_stops _ s.pc (decode_truncated_length hdec)
  exact ⟨e, (step_of_reject hdec).trans (fetchFailure_truncated he), he, fetchWindow_getElem s⟩

/-- Settles O60: the fields of `State.reset`, and that empty memory reads as nothing. -/
theorem resetValues : Obligations.ResetValues :=
  ⟨rfl, rfl, rfl, rfl, rfl, rfl, rfl, Mem.read_nil, rfl, rfl, rfl, rfl, rfl⟩

end Sys2Proof.Machine
end
